-- ==== Sys2Proof/Word.lean ====
section
/-! DEFINITION. The value types of SM3-CORE (00_scope.md R7, R9): words, bytes, the length counter, and the fixed-size groups of
them that the state and the pure functions of chapters 40 and 41 use. -/

namespace Sys2Proof

/-- `u32`: an unsigned 32-bit word (R7 WORD, R9). Addition on it is modulo 2^32 (R10). -/
abbrev Word := BitVec 32

/-- `u8`: an unsigned byte (R9). -/
abbrev Byte := BitVec 8

/-- `u64`: the total-bits counter (R7 LENW, R9). -/
abbrev Length := BitVec 64

/-- The running hash state: eight words, in the order of the digest (R7 NSTATE, R21). -/
abbrev HashState := Vector Word 8

/-- A 64-byte block (R7 BLOCK). -/
abbrev Block := Vector Byte 64

/-- Sixteen words: the words of a block, and the sliding message window WQ (R11, R30). -/
abbrev Window := Vector Word 16

/-- The eight working registers A to H (R29). -/
structure WorkRegs where
  a : Word
  b : Word
  c : Word
  d : Word
  e : Word
  f : Word
  g : Word
  h : Word
deriving DecidableEq, Repr

end Sys2Proof
end

