-- ==== Sys2Proof/Syntax.lean ====
section
/-! DEFINITION. The operations of SM3-CORE: the two operation formats of 30_encoding.md R70 as a host presents them (`HostOp`), the
decoded commands (R77), and `Instr`, one constructor per row of spec/opcode_table.json. -/

namespace Sys2Proof

/-- DIR of a bus access (R70). -/
inductive Dir where
  | read
  | write
deriving DecidableEq, Repr

/-- The BUS format: the tuple (DIR, OFF, WIDTH, DATA) of R70. `off` is the byte offset in the window, `width` the access width in
bits, `data` the write value (a read carries none, and no rule looks at it). -/
structure BusAccess where
  dir : Dir
  off : BitVec 6
  width : Nat
  data : Word
deriving DecidableEq, Repr

/-- One host operation in one of the two formats of R70: a bus access, or a command word (the value of a write to CMD). -/
inductive HostOp where
  | bus (a : BusAccess)
  | cmd (w : Word)
deriving DecidableEq, Repr

/-- What a command word decodes to when it is legal (R73, R77). -/
inductive Command where
  | nop
  | init
  | push (n : Fin 5)
  | finalize
deriving DecidableEq, Repr

/-- The instructions: one constructor for each row of spec/opcode_table.json. The eight command rows are CMD-format operations,
"each stand for `wr CMD, w`" (R79); the seven bus rows carry the operand R70 and R71 give them (DATA of a write; i = OFF[4:2] of a
DIGEST read, 0 to 7 by its type). -/
inductive Instr where
  | nop
  | init
  | push0
  | push1
  | push2
  | push3
  | push4
  | finalize
  | wrCmd (data : Word)
  | wrDin (data : Word)
  | rdDin
  | rdStatus
  | rdLenHi
  | rdLenLo
  | rdDigest (i : Fin 8)
deriving DecidableEq, Repr

/-- Why the decoder rejects an operation: the clauses of R53 in the order R53 checks them, and ILLEGAL of R77. -/
inductive DecodeError where
  /-- R53: the width is not 32 bits. -/
  | badWidth
  /-- R53: OFF[1:0] is not 00. -/
  | misaligned
  /-- R53, R42: offset 0x0C, 0x18 or 0x1C. -/
  | reservedOffset
  /-- R53: a write of STATUS, LEN_HI, LEN_LO or a DIGEST register. -/
  | readOnlyRegister
  /-- R53, R39: a read of CMD. -/
  | writeOnlyRegister
  /-- R71: "Every other code is a bus error". -/
  | undefinedCode
  /-- R76, R77: the command word is ILLEGAL. -/
  | illegalCommand
deriving DecidableEq, Repr

end Sys2Proof
end

