-- ==== Sys2Proof/WellFormed.lean ====
section
/-! DEFINITION. When a host operation is well-formed, written from the spec's TABLES (the register map of 10_state.md R38 and the
list of legal command words of 30_encoding.md R75), and so independently of the decoder, which follows the spec's PSEUDOCODE (R53,
R71, R77). Every term of `Instr` is well-formed: its operands are bounded by their types. -/

namespace Sys2Proof

/-- The access column of the register map (R38). -/
inductive RegAccess where
  | writeOnly
  | readWrite
  | readOnly
deriving DecidableEq, Repr

/-- The register map (R38): the offsets that hold a register, with the access each allows. The reserved offsets 0x0C, 0x18, 0x1C
and every offset that is not a multiple of 4 have no row. -/
def registerMap : List (Nat × RegAccess) :=
  [(0x00, .writeOnly), (0x04, .readWrite), (0x08, .readOnly), (0x10, .readOnly), (0x14, .readOnly)]
    ++ (List.range 8).map (fun i => (0x20 + 4 * i, .readOnly))

/-- Whether a register with this access may be accessed in this direction. -/
def RegAccess.allows : RegAccess → Dir → Bool
  | .writeOnly, .write => true
  | .writeOnly, .read => false
  | .readWrite, _ => true
  | .readOnly, .read => true
  | .readOnly, .write => false

/-- R52: every access is 32 bits wide. -/
def BusAccess.widthOk (a : BusAccess) : Bool := a.width == 32

/-- R38: the offset holds a register that may be accessed in this direction. -/
def BusAccess.registerOk (a : BusAccess) : Bool :=
  registerMap.any fun row => row.1 == a.off.toNat && row.2.allows a.dir

/-- A bus access that is no bus error (R38, R52). -/
def BusAccess.wellFormed (a : BusAccess) : Bool := a.widthOk && a.registerOk

/-- "The eight legal command words are exactly" these (R75). -/
def legalCommandWords : List Word :=
  [0x00000000, 0x00000001, 0x00000002, 0x00000012, 0x00000022, 0x00000032, 0x00000042, 0x00000003]

/-- A host operation that decodes to an instruction. -/
def HostOp.wellFormed : HostOp → Bool
  | .bus a => a.wellFormed
  | .cmd w => legalCommandWords.contains w

end Sys2Proof
end

