-- ==== Sys2Proof/Decode.lean ====
section
/-! DEFINITION. Decoding (20_memory.md R53, 30_encoding.md R70 to R77), total on every host operation and rejecting by name; after it
the encoder, and the reading of the opcode table's bit numbering. -/

namespace Sys2Proof

/-- The bus operation code `BOP = DIR·2^6 + OFF` (R70, R71). -/
def BusAccess.bop (a : BusAccess) : BitVec 7 :=
  (match a.dir with | .write => 0x40#7 | .read => 0x00#7) + a.off.zeroExtend 7

/-- `BusCheck` of R53, its four lines in order. -/
def busCheck (a : BusAccess) : Option DecodeError :=
  if a.width ≠ 32 then some .badWidth
  else if a.off.extractLsb' 0 2 ≠ 0#2 then some .misaligned
  else if a.off = 0x0C#6 ∨ a.off = 0x18#6 ∨ a.off = 0x1C#6 then some .reservedOffset
  else if a.dir = .write ∧ (a.off = 0x08#6 ∨ a.off = 0x10#6 ∨ a.off = 0x14#6 ∨ 0x20#6 ≤ a.off) then some .readOnlyRegister
  else if a.dir = .read ∧ a.off = 0x00#6 then some .writeOnlyRegister
  else none

/-- The digest index `i = OFF[4:2]` (R71, R164). -/
def digestIndex (off : BitVec 6) : Fin 8 := (off.extractLsb' 2 3).toFin

/-- The defined bus operation codes (R71). -/
def decodeBusCode (a : BusAccess) : Option Instr :=
  if a.bop = 0x40#7 then some (.wrCmd a.data)
  else if a.bop = 0x44#7 then some (.wrDin a.data)
  else if a.bop = 0x04#7 then some .rdDin
  else if a.bop = 0x08#7 then some .rdStatus
  else if a.bop = 0x10#7 then some .rdLenHi
  else if a.bop = 0x14#7 then some .rdLenLo
  else if a.bop &&& 0x63#7 = 0x20#7 then some (.rdDigest (digestIndex a.off))
  else none

/-- `OP = CMD[3:0]` (R39, R72). -/
def cmdOp (w : Word) : BitVec 4 := w.extractLsb' 0 4

/-- `N = CMD[6:4]` (R39, R72). -/
def cmdN (w : Word) : BitVec 3 := w.extractLsb' 4 3

/-- `RSV = CMD[31:7]` (R39, R72). -/
def cmdRsv (w : Word) : BitVec 25 := w.extractLsb' 7 25

/-- `DecodeCmd` (R77), total on every 32-bit value; `none` is ILLEGAL. -/
def decodeCmd (w : Word) : Option Command :=
  if cmdRsv w ≠ 0 then none
  else if cmdOp w = 0x0#4 then (if cmdN w = 0 then some .nop else none)
  else if cmdOp w = 0x1#4 then (if cmdN w = 0 then some .init else none)
  else if cmdOp w = 0x2#4 then (if h : (cmdN w).toNat < 5 then some (.push ⟨(cmdN w).toNat, h⟩) else none)
  else if cmdOp w = 0x3#4 then (if cmdN w = 0 then some .finalize else none)
  else none

/-- The PUSH instruction of each byte count (rows `push_0` to `push_4`). -/
def pushInstr : Fin 5 → Instr
  | 0 => .push0
  | 1 => .push1
  | 2 => .push2
  | 3 => .push3
  | 4 => .push4

/-- The instruction a legal command word stands for (R75). -/
def Command.toInstr : Command → Instr
  | .nop => .nop
  | .init => .init
  | .push n => pushInstr n
  | .finalize => .finalize

/-- The decoder: the bus check comes before any command decode (R186). -/
def decode : HostOp → Except DecodeError Instr
  | .bus a =>
    match busCheck a with
    | some e => .error e
    | none =>
      match decodeBusCode a with
      | some i => .ok i
      | none => .error .undefinedCode
  | .cmd w =>
    match decodeCmd w with
    | some c => .ok c.toInstr
    | none => .error .illegalCommand

/-- The command words of R75. -/
def Command.word : Command → Word
  | .nop => 0x00000000
  | .init => 0x00000001
  | .push n => 0x00000002 + BitVec.ofNat 32 (n.val * 0x10)
  | .finalize => 0x00000003

/-- The encoder: the command word of a CMD-format instruction (R72, R75), the bus tuple of a BUS-format one (R70, R71). A read
carries no DATA; its field is written 0. -/
def encode : Instr → HostOp
  | .nop => .cmd 0x00000000
  | .init => .cmd 0x00000001
  | .push0 => .cmd 0x00000002
  | .push1 => .cmd 0x00000012
  | .push2 => .cmd 0x00000022
  | .push3 => .cmd 0x00000032
  | .push4 => .cmd 0x00000042
  | .finalize => .cmd 0x00000003
  | .wrCmd w => .bus { dir := .write, off := 0x00, width := 32, data := w }
  | .wrDin v => .bus { dir := .write, off := 0x04, width := 32, data := v }
  | .rdDin => .bus { dir := .read, off := 0x04, width := 32, data := 0 }
  | .rdStatus => .bus { dir := .read, off := 0x08, width := 32, data := 0 }
  | .rdLenHi => .bus { dir := .read, off := 0x10, width := 32, data := 0 }
  | .rdLenLo => .bus { dir := .read, off := 0x14, width := 32, data := 0 }
  | .rdDigest i => .bus { dir := .read, off := 0x20 + BitVec.ofNat 6 (4 * i.val), width := 32, data := 0 }

/-- An operation with the DATA of a read set to 0: "DATA is the 32-bit write value (WRITE only)" (R70), so two reads that differ in
it are one operation. -/
def HostOp.canonical : HostOp → HostOp
  | .bus a => .bus (match a.dir with | .write => a | .read => { a with data := 0 })
  | .cmd w => .cmd w

/-- The host operation whose bits are `w`, numbered as spec/opcode_table.json numbers them: a 32-bit row is a command word; a row of
any other size is a bus operation, its 7-bit code in the first byte (whose bit 7 belongs to no field, so an operation that sets it
does not exist) and, in the bits after the first byte, the 32-bit DATA (log entry 4). -/
def tableOp (nbits w : Nat) : Option HostOp :=
  if nbits = 32 then some (.cmd (BitVec.ofNat 32 w))
  else
    let bits := w % 2 ^ nbits
    if bits / 128 % 2 = 1 then none
    else some (.bus {
      dir := if bits / 64 % 2 = 1 then .write else .read
      off := BitVec.ofNat 6 bits
      width := 32
      data := BitVec.ofNat 32 (bits / 256) })

/-- The instruction the decoder reads from an opcode-table word. -/
def decodeTableWord (nbits w : Nat) : Option Instr :=
  match tableOp nbits w with
  | none => none
  | some op =>
    match decode op with
    | .ok i => some i
    | .error _ => none

end Sys2Proof
end

