-- ==== Sys2Proof/Config.lean ====
section
/-! DEFINITION. What an implementation of SM3-CORE fixes (00_scope.md R8: BASE, K, STYLE), and the one free value the spec leaves
open (45_digest_and_control.md R164, decision D19). -/

namespace Sys2Proof

/-- `K`, the rounds the engine performs per engine step: one of 1, 2, 4, 8, 16, 32, 64 (R8, decision D22). -/
inductive RoundsPerStep where
  | k1
  | k2
  | k4
  | k8
  | k16
  | k32
  | k64
deriving DecidableEq, Repr

/-- The number `K` stands for. -/
def RoundsPerStep.toNat : RoundsPerStep → Nat
  | .k1 => 1
  | .k2 => 2
  | .k4 => 4
  | .k8 => 8
  | .k16 => 16
  | .k32 => 32
  | .k64 => 64

/-- `STYLE` (R8): informational only, no rule reads it. -/
inductive Style where
  | iterative
  | unrolled
deriving DecidableEq, Repr

/-- The parameters R8 leaves open, "which the model takes as arguments". They stand in `State`, where no step changes them, so
that a statement about every state is a statement about every parameter value (log entry 2). -/
structure Params where
  /-- The number of the 64-byte slot of the platform's address space the register window fills: BASE is 64 times it, so BASE is
  a multiple of 64 by construction (R8, R51). -/
  slot : Nat
  k : RoundsPerStep
  style : Style
deriving DecidableEq, Repr

/-- `BASE`, the platform address of the register window (R8, R51). -/
def Params.base (p : Params) : Nat := 64 * p.slot

/-- DESIGN CHOICE (log entry 2): the parameters of `State.reset`. The spec leaves all three open. -/
def Params.standard : Params := { slot := 0, k := .k1, style := .iterative }

/-- FREE VALUE (log entry 3): what the n-th read of a DIGEST register with DVALID = 0 returns, "any u32 ; draw" (R164). It has no
body, so nothing can be proved about its value. -/
opaque Config.freeDigest : Nat → Word

end Sys2Proof
end

