-- ==== Sys2Proof/Machine/Arith.lean ====
section
/-! DEFINITION. Rotation, field and byte-order helpers (00_scope.md R9 to R11; 20_memory.md R55 to R58). -/

namespace Sys2Proof.Machine

/-- `rotl(x, n)` (R10): a left rotation, its amount taken modulo 32. -/
def rotl (x : Word) (n : Nat) : Word :=
  (x <<< (n % 32)) ||| (x >>> (32 - n % 32))

/-- `be32` (R11): four bytes to one word, first byte most significant. -/
def be32 (b0 b1 b2 b3 : Byte) : Word := b0 ++ b1 ++ b2 ++ b3

/-- Byte `k` of a word, most significant first: `w[31 − 8k : 24 − 8k]` for k = 0 to 3 (R11, R57, R58). DESIGN CHOICE (log entry 20):
the last byte for a k beyond 3, which no rule reads. -/
def wordByte (w : Word) (k : Nat) : Byte := w.extractLsb' (24 - 8 * k) 8

/-- `bytes32` (R11): a word's four bytes, most significant first. -/
def bytes32 (w : Word) : List Byte := [wordByte w 0, wordByte w 1, wordByte w 2, wordByte w 3]

/-- Byte `k` of a u64, most significant first: `n[63 − 8k : 56 − 8k]` for k = 0 to 7 (R11, R56). DESIGN CHOICE (log entry 20): the last
byte for a k beyond 7, which no rule reads. -/
def lenByte (n : Length) (k : Nat) : Byte := n.extractLsb' (56 - 8 * k) 8

/-- `be64bytes` (R11): a u64's eight bytes, most significant first. -/
def be64bytes (n : Length) : List Byte := (List.range 8).map (lenByte n)

/-- `words(B)` (R11, R55): the sixteen big-endian words of a block. -/
def words (b : Block) : Window :=
  Vector.ofFn fun i => be32 b[4 * i.val] b[4 * i.val + 1] b[4 * i.val + 2] b[4 * i.val + 3]

end Sys2Proof.Machine
end

