-- ==== Sys2Proof/Machine/Compression.lean ====
section
/-! DEFINITION. The constants, the round functions and one round (40_compression.md R90 to R97), and the feed-forward (R98). A round
number j is 0 to 63. DESIGN CHOICE (log entry 20): for a j beyond 63, which the machine never asks for, the functions of j below go on
with the form of rounds 16 to 63. -/

namespace Sys2Proof.Machine

/-- The IV (R90). -/
def iv : HashState :=
  #v[0x7380166F, 0x4914B2B9, 0x172442D7, 0xDA8A0600, 0xA96F30BC, 0x163138AA, 0xE38DEE4D, 0xB0FB0E4E]

/-- `T_j` (R91); for a j beyond 63, log entry 20. -/
def tConst (j : Nat) : Word := if j < 16 then 0x79CC4519 else 0x7A879D8A

/-- `T'_j = rotl(T_j, j mod 32)` (R91, conflict C2). -/
def tRot (j : Nat) : Word := rotl (tConst j) (j % 32)

/-- `FF_j` (R92). -/
def ff (j : Nat) (x y z : Word) : Word :=
  if j < 16 then x ^^^ y ^^^ z else (x &&& y) ||| (x &&& z) ||| (y &&& z)

/-- `GG_j` (R93, conflict C4). -/
def gg (j : Nat) (x y z : Word) : Word :=
  if j < 16 then x ^^^ y ^^^ z else (x &&& y) ||| (~~~x &&& z)

/-- `P0` (R94). -/
def p0 (x : Word) : Word := x ^^^ rotl x 9 ^^^ rotl x 17

/-- `SS1` (R95, conflict C1). -/
def ss1 (j : Nat) (r : WorkRegs) : Word := rotl (rotl r.a 12 + r.e + tRot j) 7

/-- `SS2` (R95). -/
def ss2 (j : Nat) (r : WorkRegs) : Word := ss1 j r ^^^ rotl r.a 12

/-- `TT1` (R95); `w'` is the mixed word W'[j]. -/
def tt1 (j : Nat) (r : WorkRegs) (w' : Word) : Word := ff j r.a r.b r.c + r.d + ss2 j r + w'

/-- `TT2` (R95); `w` is the expanded word W[j]. -/
def tt2 (j : Nat) (r : WorkRegs) (w : Word) : Word := gg j r.e r.f r.g + r.h + ss1 j r + w

/-- `Round(j, (A..H), W[j], W'[j])` (R96, R97): every right-hand side reads the values before the round. -/
def compressRound (j : Nat) (r : WorkRegs) (w w' : Word) : WorkRegs :=
  { a := tt1 j r w', b := r.a, c := rotl r.b 9, d := r.c
    e := p0 (tt2 j r w), f := r.e, g := rotl r.f 19, h := r.g }

/-- The working registers loaded from the hash state (R104 step 2, R120). -/
def loadRegs (v : HashState) : WorkRegs :=
  { a := v[0], b := v[1], c := v[2], d := v[3], e := v[4], f := v[5], g := v[6], h := v[7] }

/-- "New state = old state XOR (A,B,C,D,E,F,G,H) ... word-by-word" (R98, R104 step 4, R124). -/
def feedForward (v : HashState) (r : WorkRegs) : HashState :=
  #v[v[0] ^^^ r.a, v[1] ^^^ r.b, v[2] ^^^ r.c, v[3] ^^^ r.d, v[4] ^^^ r.e, v[5] ^^^ r.f, v[6] ^^^ r.g, v[7] ^^^ r.h]

end Sys2Proof.Machine
end

