-- ==== Sys2Proof/Machine/Schedule.lean ====
section
/-! DEFINITION. The message schedule (41_message_schedule.md): P1, the recurrence as an array (R111, R112, R114), the 16-word window
the hardware keeps (R115), and the compression function CF over the array form (40_compression.md R104). -/

namespace Sys2Proof.Machine

/-- `P1` (R110). -/
def p1 (x : Word) : Word := x ^^^ rotl x 15 ^^^ rotl x 23

/-- One step of the recurrence of R111: given W[0..j−1] (j at least 16), append W[j]. -/
def scheduleStep (w : List Word) : List Word :=
  w ++ [p1 (w.getD (w.length - 16) 0 ^^^ w.getD (w.length - 9) 0 ^^^ rotl (w.getD (w.length - 3) 0) 15)
    ^^^ rotl (w.getD (w.length - 13) 0) 7 ^^^ w.getD (w.length - 6) 0]

/-- The expanded words W[0..67] (R111, R114). -/
def expandedWords (m : Window) : List Word := scheduleStep^[52] m.toList

/-- `W[j]` for j = 0 to 67 (R111). DESIGN CHOICE (log entry 20): 0 for a j beyond 67, which no rule reads. -/
def expandedWord (m : Window) (j : Nat) : Word := (expandedWords m).getD j 0

/-- `W'[j] = W[j] ⊕ W[j+4]` for j = 0 to 63 (R112, conflict C3). DESIGN CHOICE (log entry 20): the same expression for a j beyond 63,
which no rule reads. -/
def mixedWord (m : Window) (j : Nat) : Word := expandedWord m j ^^^ expandedWord m (j + 4)

/-- `WindowStep` (R115): the window slides by one word and the new last word is W[j+16]. -/
def windowStep (q : Window) : Window :=
  Vector.ofFn fun i =>
    if h : i.val < 15 then q[i.val + 1]
    else p1 (q[0] ^^^ q[7] ^^^ rotl q[13] 15) ^^^ rotl q[3] 7 ^^^ q[10]

/-- The working registers after the first `n` rounds of a compression of the block with words `m` (R104 steps 2 and 3),
for n up to 64 (beyond: log entry 20). -/
def runRounds (v : HashState) (m : Window) (n : Nat) : WorkRegs :=
  (List.range n).foldl (fun r j => compressRound j r (expandedWord m j) (mixedWord m j)) (loadRegs v)

/-- `CF(V, B)` (R104). -/
def cf (v : HashState) (b : Block) : HashState :=
  feedForward v (runRounds v (words b) 64)

end Sys2Proof.Machine
end

