-- ==== Sys2Proof/Machine/State.lean ====
section
/-! DEFINITION. The state of one SM3-CORE instance with its host (10_state.md R20 to R34, 70_reset_and_hazards.md R200), as plain
data; the reasons a step can stop; and the state after reset. -/

namespace Sys2Proof.Machine

/-- PHASE (R25): ACTIVE accepts input, FINAL holds the digest. -/
inductive Phase where
  | active
  | final
deriving DecidableEq, Repr

/-- A record of the model-only FAULTS list, "(cause, recorded value)" (R187), one constructor per cause of 60_exceptions.md. These
are NEXT states of the machine, not stops: "The block keeps working" (R180). -/
inductive FaultRecord where
  /-- Cause 1, ILLEGAL_CMD: the command word (R181). -/
  | illegalCommand (w : Word)
  /-- Cause 2, SEQUENCE: the command word (R182). -/
  | sequence (w : Word)
  /-- Cause 3, LENGTH_OVERFLOW: the command word and LEN (R183). -/
  | lengthOverflow (w : Word) (len : Length)
  /-- Cause 4, BUS_ERROR: the direction, offset and width (R184). -/
  | busError (dir : Dir) (off : BitVec 6) (width : Nat)
deriving DecidableEq, Repr

/-- What the bus answers to one completed access (R50, R184): the model's record of what the host sees. -/
inductive Response where
  /-- A write completed. A rejected command answers so too: its error is seen in STATUS only (R180). -/
  | written
  /-- A read returned this value. -/
  | value (w : Word)
  /-- The bus error response; "A read that gets a bus error returns no value" (R184). -/
  | busError
deriving DecidableEq, Repr

/-- One access a host issues, not yet taken: a bus access at a physical address (R50), or a CMD-format operation, which "stands for
`wr CMD, w`" (R79). -/
inductive Request where
  | access (addr : Nat) (dir : Dir) (width : Nat) (data : Word)
  | command (w : Word)
deriving DecidableEq, Repr

/-- What happens next, as the outside world orders it: a host access, a turn given to the engine, or a reset. The order of this list
is the interleaving of the two agents (R60, R61, R202, R210; log entry 5). -/
inductive Event where
  | host (r : Request)
  | engine
  | reset
deriving DecidableEq, Repr

/-- The state. -/
structure State where
  /-- The parameters BASE, K and STYLE (R8); no step changes them. -/
  params : Params
  /-- V[0..7], the chaining state (R20, R21). -/
  v : HashState
  /-- LEN, total bits pushed (R20, R22). -/
  len : Length
  /-- BUF[0..63], the remainder's bytes (R20, R23). -/
  buf : Block
  /-- BUFLEN, 6 bits (R20, R23). -/
  buflen : BitVec 6
  /-- PHASE (R20, R25). -/
  phase : Phase
  /-- ERR_ILL, sticky (R20, R26). -/
  errIll : Bool
  /-- ERR_SEQ, sticky (R20, R26). -/
  errSeq : Bool
  /-- ERR_LEN, sticky (R20, R26). -/
  errLen : Bool
  /-- DIN (R20, R27). -/
  din : Word
  /-- BUSY (R20, R28). -/
  busy : Bool
  /-- The working registers A to H (R29). -/
  regs : WorkRegs
  /-- WQ[0..15], the message window (R30). -/
  wq : Window
  /-- J, the round counter, 0 to 64 (R31). -/
  j : Fin 65
  /-- BLK[0..63], the block latch (R32). -/
  blk : Block
  /-- PEND: a FINALIZE needs a second compression (R33). -/
  pend : Bool
  /-- FAULTS, oldest first, model-only in the spec too; never cleared (R34, R187). -/
  faults : List FaultRecord
  /-- The model's own: what the outside world does next, first event at the head (log entry 5). -/
  inputs : List Event
  /-- The model's own: what the bus answered, oldest first (log entry 6). -/
  responses : List Response
  /-- The model's own: how many unspecified DIGEST reads have drawn a free value (log entry 3). -/
  draws : Nat
deriving DecidableEq, Repr

/-- Reasons for a step to stop with a fault. There are NONE, so this type is empty: every cause of 60_exceptions.md rejects one
command or access and "The block keeps working" (R180), and a held command waits for the engine (R201). Nothing raises a fault;
that is the spec's own answer and neither hides nor adds behaviour. -/
inductive Fault where
deriving DecidableEq, Repr

/-- Reasons for a step to refuse. -/
inductive Refusal where
  /-- The instruction has no meaning yet. Raised by an arm of `exec` only; no arm raises it now. Safe: the machine stops where the
  hardware would go on. -/
  | notModelled (mnemonic : String)
deriving DecidableEq, Repr

/-- The state after reset, for given parameters (R20, R200). V, LEN, BUFLEN, PHASE, the error bits, DIN, BUSY and PEND are the
spec's. DESIGN CHOICE (log entry 1): BUF, A..H, WQ, J and BLK, which R200 leaves unspecified, are zero. FAULTS is empty at the start
of a run (R34). -/
def State.resetWith (p : Params) : State where
  params := p
  v := iv
  len := 0
  buf := Vector.replicate 64 0
  buflen := 0
  phase := .active
  errIll := false
  errSeq := false
  errLen := false
  din := 0x00000000
  busy := false
  regs := { a := 0, b := 0, c := 0, d := 0, e := 0, f := 0, g := 0, h := 0 }
  wq := Vector.replicate 16 0
  j := 0
  blk := Vector.replicate 64 0
  pend := false
  faults := []
  inputs := []
  responses := []
  draws := 0

/-- The machine right after reset, with the parameters `Params.standard` (log entry 2). -/
def State.reset : State := State.resetWith Params.standard

end Sys2Proof.Machine
end

