-- ==== Sys2Proof/Machine/Operands.lean ====
section
/-! DEFINITION. The operands of the commands (30_encoding.md R74): N with the bytes a PUSH takes from DIN, and the padded blocks
FINALIZE builds from BUF, BUFLEN and LEN (44_finalizer.md R150, R152, R153). -/

namespace Sys2Proof.Machine

/-- The bytes PUSH(N) takes: `DIN[31 − 8k : 24 − 8k]` for k = 0 to N − 1 (R58, R74). -/
def dinBytes (din : Word) (n : Nat) : List Byte := (List.range n).map (wordByte din)

/-- `PadBlock(s)` (R150): the remainder, one 0x80 byte, zeros. -/
def padBlock (s : State) : Block :=
  Vector.ofFn fun i =>
    if i.val < s.buflen.toNat then s.buf[i] else if i.val = s.buflen.toNat then 0x80 else 0x00

/-- `P[56+i] <- be64bytes(n)[i]` for i = 0 to 7 (R152 step 3). -/
def withLength (p : Block) (n : Length) : Block :=
  Vector.ofFn fun i => if 56 ≤ i.val then lenByte n (i.val - 56) else p[i]

/-- `LenBlock(n)` (R153): 56 zero bytes, then be64bytes(n). -/
def lenBlock (n : Length) : Block := withLength (Vector.replicate 64 0x00) n

end Sys2Proof.Machine
end

