-- ==== Sys2Proof/Machine/Engine.lean ====
section
/-! DEFINITION. The round engine (42_round_engine.md R120 to R124), the CORE agent. -/

namespace Sys2Proof.Machine

/-- `StartCompression(s, B)` (R120). -/
def startCompression (s : State) (b : Block) : State :=
  { s with blk := b, regs := loadRegs s.v, wq := words b, j := 0, busy := true }

/-- One round of the engine: the body of the loop of R122. J "never passes 64" (R31, R122): at 64 there is no round left. -/
def roundOnce (s : State) : State :=
  if h : s.j.val < 64 then
    { s with
      regs := compressRound s.j.val s.regs s.wq[0] (s.wq[0] ^^^ s.wq[4])
      wq := windowStep s.wq
      j := ⟨s.j.val + 1, by omega⟩ }
  else s

/-- `EngineRound(s)` (R122): K rounds. -/
def engineRound (s : State) : State := roundOnce^[s.params.k.toNat] s

/-- `EngineFinish(s)` (R124): the feed-forward, then the pending length block or the end. -/
def engineFinish (s : State) : State :=
  if s.pend then
    startCompression { s with v := feedForward s.v s.regs, pend := false } (lenBlock s.len)
  else { s with v := feedForward s.v s.regs, busy := false }

/-- A turn of the engine (R121): "When BUSY = 0 the engine has no step", and the turn changes nothing. -/
def engineStep (s : State) : State :=
  if s.busy then (if s.j.val < 64 then engineRound s else engineFinish s) else s

/-- The engine left alone for as many turns as a command can need, 2·(64/K + 1) (R126). -/
def settle (s : State) : State := engineStep^[2 * (64 / s.params.k.toNat + 1)] s

end Sys2Proof.Machine
end

