-- ==== Sys2Proof/Machine/Flags.lean ====
section
/-! DEFINITION. The status flags (10_state.md R37, R40): DVALID, the STATUS word, the LEN halves, and the length condition of
43_streaming_buffer.md R144. -/

namespace Sys2Proof.Machine

/-- The FINAL bit: PHASE = FINAL (R25, R40). -/
def finalBit (s : State) : Bool := s.phase = .final

/-- DVALID = FINAL ∧ ¬BUSY (R28, R40). -/
def dvalid (s : State) : Bool := finalBit s && !s.busy

/-- The STATUS word, field by field from bit 31 down (R40): 31:22 reserved, BUFLEN, 15:11 reserved, ERR_LEN, ERR_SEQ, ERR_ILL, 7:3
reserved, DVALID, FINAL, BUSY. -/
def statusWord (s : State) : Word :=
  0#10 ++ s.buflen ++ 0#5 ++ BitVec.ofBool s.errLen ++ BitVec.ofBool s.errSeq ++ BitVec.ofBool s.errIll ++ 0#5
    ++ BitVec.ofBool (dvalid s) ++ BitVec.ofBool (finalBit s) ++ BitVec.ofBool s.busy

/-- LEN[63:32] (R41, R166). -/
def lenHi (s : State) : Word := s.len.extractLsb' 32 32

/-- LEN[31:0] (R41, R166). -/
def lenLo (s : State) : Word := s.len.extractLsb' 0 32

/-- `LenOK(s, n)`: `LEN + 8·n ≤ 2^64 − 1`, computed without wrap-around (R144). -/
def lenOK (s : State) (n : Nat) : Bool := s.len.toNat + 8 * n ≤ 2 ^ 64 - 1

end Sys2Proof.Machine
end

