-- ==== Sys2Proof/Machine/Ops.lean ====
section
/-! DEFINITION. The operations every meaning shares: the register window's addresses (20_memory.md R50, R51), the bus response, raising
an error cause and clearing the error bits (60_exceptions.md R180 to R190), holding a command (70_reset_and_hazards.md R201), and
reset (R200, R202). The block has no memory beyond its registers (R13, R51), so there is no memory operation. -/

namespace Sys2Proof.Machine

/-- The offset in the window a physical address selects, if it lies in the window at BASE (R50, R51). -/
def windowOffset (base addr : Nat) : Option (BitVec 6) :=
  if base ≤ addr ∧ addr < base + 64 then some (BitVec.ofNat 6 (addr - base)) else none

/-- The host operation a request presents to this block: none if its address is outside the block's window (R50). -/
def presentedOp (p : Params) : Request → Option HostOp
  | .access addr dir width data =>
    (windowOffset p.base addr).map fun off => .bus { dir := dir, off := off, width := width, data := data }
  | .command w => some (.cmd w)

/-- The request that presents a host operation: a bus access goes to the physical address `BASE + off` (R50). -/
def requestOf (p : Params) : HostOp → Request
  | .bus a => .access (p.base + a.off.toNat) a.dir a.width a.data
  | .cmd w => .command w

/-- The bus answers an access. -/
def respond (r : Response) (s : State) : State := { s with responses := s.responses ++ [r] }

/-- `raise E(info)`, ONE operation for the four causes (R13, R180 to R184, R187): the cause's sticky bit is set (a bus error has
none), the fault record is appended, and nothing else changes. No state is saved and no control is transferred (R189). -/
def raise (c : FaultRecord) (s : State) : State :=
  match c with
  | .illegalCommand _ => { s with errIll := true, faults := s.faults ++ [c] }
  | .sequence _ => { s with errSeq := true, faults := s.faults ++ [c] }
  | .lengthOverflow _ _ => { s with errLen := true, faults := s.faults ++ [c] }
  | .busError _ _ _ => { s with faults := s.faults ++ [c] }

/-- The other side of `raise`. "There is no trap return" (R190): INIT clears the sticky bits (R161), and keeps FAULTS (R34). -/
def clearErrors (s : State) : State := { s with errIll := false, errSeq := false, errLen := false }

/-- Put a request back at the head of what happens next. -/
def requeue (r : Request) (s : State) : State := { s with inputs := .host r :: s.inputs }

/-- A CMD write, presented by request `r`, whose command has the effect `perform` when accepted (R201). While BUSY = 1 it is held:
it stays where it was, before any later access of the host, and the step is the engine's, the one agent that can move. While BUSY =
0 it is accepted. -/
def offerCommand (r : Request) (perform : State → State) (s : State) : State :=
  if s.busy then engineStep (requeue r s) else respond .written (perform s)

/-- A bus access that the bus check rejects (R53, R184). -/
def busErrorAccess (a : BusAccess) (s : State) : State :=
  respond .busError (raise (.busError a.dir a.off a.width) s)

/-- Reset (R200, R202), at any time: every field as `State.resetWith` has it, but FAULTS (R34) and what is no part of the block (its
parameters and the host's side of the bus). -/
def resetMachine (s : State) : State :=
  { State.resetWith s.params with
    faults := s.faults, inputs := s.inputs, responses := s.responses, draws := s.draws }

end Sys2Proof.Machine
end

