-- ==== Sys2Proof/Machine/Control.lean ====
section
/-! DEFINITION. The control commands NOP and INIT (45_digest_and_control.md R160, R161). -/

namespace Sys2Proof.Machine

/-- The effect of an accepted NOP: "(no state change)" (R160). -/
def acceptNop (s : State) : State := s

/-- The effect of an accepted INIT (R161). DIN, BUF, FAULTS and the engine's registers are unchanged. -/
def acceptInit (s : State) : State :=
  { clearErrors s with v := iv, len := 0, buflen := 0, phase := .active, pend := false }

/-- `nop` (R160). -/
def execNop (s : State) : Host.Outcome State Fault Refusal :=
  .next (offerCommand (.command 0x00000000) acceptNop s)

/-- `init` (R161). -/
def execInit (s : State) : Host.Outcome State Fault Refusal :=
  .next (offerCommand (.command 0x00000001) acceptInit s)

end Sys2Proof.Machine
end

