-- ==== Sys2Proof/Machine/Finalize.lean ====
section
/-! DEFINITION. The padding and finalization engine: the FINALIZE command (44_finalizer.md R150 to R153). -/

namespace Sys2Proof.Machine

/-- Steps 2 and 3 of R152: two compressions when `r + 1 + 8 > 64` (R151), one otherwise. -/
def startFinal (s : State) : State :=
  if s.buflen.toNat + 1 + 8 > 64 then startCompression { s with pend := true } (padBlock s)
  else startCompression s (withLength (padBlock s) s.len)

/-- The effect of an accepted FINALIZE (R152). -/
def acceptFinalize (s : State) : State :=
  if s.phase = .final then raise (.sequence Command.finalize.word) s
  else { startFinal s with buflen := 0, phase := .final }

/-- `finalize` (R152). -/
def execFinalize (s : State) : Host.Outcome State Fault Refusal :=
  .next (offerCommand (.command 0x00000003) acceptFinalize s)

end Sys2Proof.Machine
end

