-- ==== Sys2Proof/Machine/Push.lean ====
section
/-! DEFINITION. The streaming buffer and the PUSH command (43_streaming_buffer.md R141). -/

namespace Sys2Proof.Machine

/-- One pass of the loop of R141 step 4: the byte goes to BUF[BUFLEN], BUFLEN advances, and at 64 the block is latched and its
compression starts with BUFLEN back at 0. -/
def pushByte (s : State) (x : Byte) : State :=
  let buf' := s.buf.set s.buflen.toNat x
  if s.buflen.toNat + 1 = 64 then { startCompression { s with buf := buf' } buf' with buflen := 0 }
  else { s with buf := buf', buflen := s.buflen + 1 }

/-- Steps 3 and 4 of R141: LEN counts 8·N bits, then the N bytes of DIN are pushed in order. `acceptPush` comes here only where
LenOK(s, N) holds, so LEN does not wrap (R144). -/
def pushBytes (n : Nat) (s : State) : State :=
  (dinBytes s.din n).foldl pushByte { s with len := s.len + BitVec.ofNat 64 (8 * n) }

/-- The effect of an accepted PUSH(N) (R141), with the checks in the order of R186. -/
def acceptPush (n : Fin 5) (s : State) : State :=
  if s.phase = .final then raise (.sequence (Command.push n).word) s
  else if lenOK s n.val then pushBytes n.val s
  else raise (.lengthOverflow (Command.push n).word s.len) s

/-- `push 0` (R141). -/
def execPush0 (s : State) : Host.Outcome State Fault Refusal :=
  .next (offerCommand (.command 0x00000002) (acceptPush 0) s)

/-- `push 1` (R141). -/
def execPush1 (s : State) : Host.Outcome State Fault Refusal :=
  .next (offerCommand (.command 0x00000012) (acceptPush 1) s)

/-- `push 2` (R141). -/
def execPush2 (s : State) : Host.Outcome State Fault Refusal :=
  .next (offerCommand (.command 0x00000022) (acceptPush 2) s)

/-- `push 3` (R141). -/
def execPush3 (s : State) : Host.Outcome State Fault Refusal :=
  .next (offerCommand (.command 0x00000032) (acceptPush 3) s)

/-- `push 4` (R141). -/
def execPush4 (s : State) : Host.Outcome State Fault Refusal :=
  .next (offerCommand (.command 0x00000042) (acceptPush 4) s)

end Sys2Proof.Machine
end

