-- ==== Sys2Proof/Machine/Registers.lean ====
section
/-! DEFINITION. The register accesses (45_digest_and_control.md R164 to R169). -/

namespace Sys2Proof.Machine

/-- The effect of an accepted illegal command word (R76, R181). -/
def acceptIllegal (w : Word) (s : State) : State := raise (.illegalCommand w) s

/-- The effect of an accepted command (R169). -/
def performCommand : Command → State → State
  | .nop => acceptNop
  | .init => acceptInit
  | .push n => acceptPush n
  | .finalize => acceptFinalize

/-- The effect of an accepted CMD write of `w`: the command `DecodeCmd(w)` (R169). -/
def performWord (w : Word) : State → State :=
  match decodeCmd w with
  | some c => performCommand c
  | none => acceptIllegal w

/-- What becomes of an operation the decoder rejects: a bus access gets a bus error (R184); an illegal command word is a CMD write
like any other, held while BUSY = 1 (R201) and raising ILLEGAL_CMD when accepted (R181). -/
def rejectOp : HostOp → State → State
  | .bus a => busErrorAccess a
  | .cmd w => offerCommand (.command w) (acceptIllegal w)

/-- `wr CMD` (R169). -/
def execWrCmd (w : Word) (s : State) : Host.Outcome State Fault Refusal :=
  .next (offerCommand (.access (s.params.base + 0x00) .write 32 w) (performWord w) s)

/-- `wr DIN` (R167): also while BUSY = 1. -/
def execWrDin (v : Word) (s : State) : Host.Outcome State Fault Refusal :=
  .next (respond .written { s with din := v })

/-- `rd DIN` (R168). -/
def execRdDin (s : State) : Host.Outcome State Fault Refusal :=
  .next (respond (.value s.din) s)

/-- `rd STATUS` (R165). -/
def execRdStatus (s : State) : Host.Outcome State Fault Refusal :=
  .next (respond (.value (statusWord s)) s)

/-- `rd LEN_HI` (R166). -/
def execRdLenHi (s : State) : Host.Outcome State Fault Refusal :=
  .next (respond (.value (lenHi s)) s)

/-- `rd LEN_LO` (R166). -/
def execRdLenLo (s : State) : Host.Outcome State Fault Refusal :=
  .next (respond (.value (lenLo s)) s)

/-- `rd DIGESTi` (R164): V[i] when DVALID = 1, else any u32, a fresh free value for each such read (log entry 3). -/
def execRdDigest (i : Fin 8) (s : State) : Host.Outcome State Fault Refusal :=
  .next (if dvalid s then respond (.value s.v[i]) s
    else respond (.value (Config.freeDigest s.draws)) { s with draws := s.draws + 1 })

end Sys2Proof.Machine
end

