-- ==== Sys2Proof/Machine/Dispatch.lean ====
section
/-! DEFINITION. One arm per row of spec/opcode_table.json. -/

namespace Sys2Proof.Machine

def exec (i : Instr) (s : State) : Host.Outcome State Fault Refusal :=
  match i with
  | .nop => Sys2Proof.Machine.execNop s
  | .init => Sys2Proof.Machine.execInit s
  | .push0 => Sys2Proof.Machine.execPush0 s
  | .push1 => Sys2Proof.Machine.execPush1 s
  | .push2 => Sys2Proof.Machine.execPush2 s
  | .push3 => Sys2Proof.Machine.execPush3 s
  | .push4 => Sys2Proof.Machine.execPush4 s
  | .finalize => Sys2Proof.Machine.execFinalize s
  | .wrCmd data => Sys2Proof.Machine.execWrCmd data s
  | .wrDin data => Sys2Proof.Machine.execWrDin data s
  | .rdDin => Sys2Proof.Machine.execRdDin s
  | .rdStatus => Sys2Proof.Machine.execRdStatus s
  | .rdLenHi => Sys2Proof.Machine.execRdLenHi s
  | .rdLenLo => Sys2Proof.Machine.execRdLenLo s
  | .rdDigest n => Sys2Proof.Machine.execRdDigest n s

end Sys2Proof.Machine
end

