-- ==== Sys2Proof/Machine/Step.lean ====
section
/-! DEFINITION. One step of the machine (20_memory.md R60, R61; 42_round_engine.md R121; 70_reset_and_hazards.md R201, R202, R210): the
first thing the outside world has in store happens, whole; where it has nothing in store, the engine goes on alone. -/

namespace Sys2Proof.Machine

/-- A host's access reaches the bus: an access outside the window is not the block's; a decoded operation is executed; a rejected one
is answered as 60_exceptions.md says. -/
def runRequest (r : Request) (s : State) : Host.Outcome State Fault Refusal :=
  match presentedOp s.params r with
  | none => .next s
  | some op =>
    match decode op with
    | .ok i => exec i s
    | .error _ => .next (rejectOp op s)

/-- One step. -/
def step (s : State) : Host.Outcome State Fault Refusal :=
  match s.inputs with
  | [] => .next (engineStep s)
  | .engine :: rest => .next (engineStep { s with inputs := rest })
  | .reset :: rest => .next (resetMachine { s with inputs := rest })
  | .host r :: rest => runRequest r { s with inputs := rest }

/-- The state in which the operation of an opcode-table word is the next access of the host. -/
def State.withFetchWord (s : State) (nbits w : Nat) : State :=
  match tableOp nbits w with
  | none => s
  | some op => requeue (requestOf s.params op) s

end Sys2Proof.Machine
end

