-- ==== Sys2Proof/Machine/HostSyntax.lean ====
section
/-! DEFINITION. Host-program syntax and the pseudo-instructions (30_encoding.md R79, R80): each stands for a list of host accesses. -/

namespace Sys2Proof.Machine

/-- One line of a host program (R79): the access that presents the instruction. -/
def hostLine (p : Params) (i : Instr) : Event := .host (requestOf p (encode i))

/-- `pushw imm32, N` (R80). -/
def pushw (p : Params) (imm : Word) (n : Fin 5) : List Event :=
  [hostLine p (.wrDin imm), hostLine p (pushInstr n)]

/-- `pushbytes b0 b1 ...` (R80): groups of 4 bytes, the last of 1 to 3 padded on the right with 0x00. -/
def pushbytes (p : Params) : List Byte → List Event
  | [] => []
  | [b0] => pushw p (be32 b0 0x00 0x00 0x00) 1
  | [b0, b1] => pushw p (be32 b0 b1 0x00 0x00) 2
  | [b0, b1, b2] => pushw p (be32 b0 b1 b2 0x00) 3
  | b0 :: b1 :: b2 :: b3 :: rest => pushw p (be32 b0 b1 b2 b3) 4 ++ pushbytes p rest

/-- `wait` (R80), a loop of STATUS reads "until t[0] = 0", when it makes `polls` rounds and the engine moves once before each. -/
def waitPolls (p : Params) (polls : Nat) : List Event :=
  (List.replicate polls [Event.engine, hostLine p .rdStatus]).flatten

/-- `readdigest` (R80). -/
def readdigest (p : Params) (polls : Nat) : List Event :=
  waitPolls p polls ++ (List.ofFn fun i : Fin 8 => hostLine p (.rdDigest i))

/-- `hash b0 ... b(L−1)` (R80). -/
def hashProgram (p : Params) (polls : Nat) (m : List Byte) : List Event :=
  [hostLine p .init] ++ pushbytes p m ++ [hostLine p .finalize] ++ readdigest p polls

end Sys2Proof.Machine
end

