-- ==== Sys2Proof/Machine/Reference.lean ====
section
/-! DEFINITION. What the block computes, as the spec's functions on byte sequences: the source's push of a slice (43_streaming_buffer.md
R140, R142), the standard padding (44_finalizer.md R154) and the digest (45_digest_and_control.md R162). The machine does not call
them; the statements compare the machine with them. -/

namespace Sys2Proof.Machine

/-- The part of the state that R140 works on: V, LEN, BUF and BUFLEN. -/
structure Stream where
  v : HashState
  len : Length
  buf : Block
  buflen : BitVec 6
deriving DecidableEq, Repr

/-- The stream part of a state. -/
def State.stream (s : State) : Stream := { v := s.v, len := s.len, buf := s.buf, buflen := s.buflen }

/-- The remainder: BUF[0] to BUF[BUFLEN − 1] (R23). -/
def Stream.remainder (s : Stream) : List Byte := s.buf.toList.take s.buflen.toNat

/-- Two streams give "the same V, LEN, BUF[0..BUFLEN−1] and BUFLEN" (R142). -/
def Stream.Same (s t : Stream) : Prop :=
  s.v = t.v ∧ s.len = t.len ∧ s.buflen = t.buflen ∧ s.remainder = t.remainder

/-- `BUF[r+k] <- b[k]` for every byte of b. -/
def writeAt : Block → Nat → List Byte → Block
  | buf, _, [] => buf
  | buf, r, x :: xs => writeAt (buf.setIfInBounds r x) (r + 1) xs

/-- The block of the first 64 bytes of a list. -/
def blockOf (b : List Byte) : Block := Vector.ofFn fun i => b.getD i.val 0

/-- Step 5 of R140, the 64-byte strides, with a bound on their number; it gives the hash state and the bytes left. -/
def strides : Nat → HashState → List Byte → HashState × List Byte
  | 0, v, b => (v, b)
  | n + 1, v, b => if b.length < 64 then (v, b) else strides n (cf v (blockOf (b.take 64))) (b.drop 64)

/-- `PushBytes(s, b)` (R140). R140 defines it when PHASE = ACTIVE and LenOK(s, L). DESIGN CHOICE (log entry 19): a stream has no PHASE,
and where LenOK fails this function still gives a value, with LEN taken modulo 2^64. The spec says nothing of that value
(91_not_in_source.md N10); the machine never calls this function, and its PUSH is rejected there (R183, `acceptPush`). -/
def pushSlice (s : Stream) (b : List Byte) : Stream :=
  let len := s.len + BitVec.ofNat 64 (8 * b.length)
  let r := s.buflen.toNat
  if r + b.length < 64 then
    { s with len := len, buf := writeAt s.buf r b, buflen := BitVec.ofNat 6 (r + b.length) }
  else
    let full := writeAt s.buf r (b.take (64 - r))
    let rest := strides b.length (cf s.v full) (b.drop (64 - r))
    { v := rest.1, len := len, buf := writeAt full 0 rest.2, buflen := BitVec.ofNat 6 rest.2.length }

/-- The push of one byte (R142). DESIGN CHOICE (log entry 19): outside the domain of R140 it gives a value too, as `pushSlice` does. -/
def pushOne (s : Stream) (x : Byte) : Stream :=
  let buf := s.buf.set s.buflen.toNat x
  if s.buflen.toNat + 1 = 64 then { v := cf s.v buf, len := s.len + 8, buf := buf, buflen := 0 }
  else { s with len := s.len + 8, buf := buf, buflen := s.buflen + 1 }

/-- The whole 64-byte blocks at the front of a byte sequence, in order. -/
def messageBlocks (m : List Byte) : List Block :=
  (List.range (m.length / 64)).map fun i => blockOf (m.drop (64 * i))

/-- z of R154: the number of zero bytes, (55 − L) mod 64. -/
def padZeros (l : Nat) : Nat := (119 - l % 64) % 64

/-- `M ‖ 0x80 ‖ 0x00^z ‖ be64bytes(8·L)` (R154). DESIGN CHOICE (log entry 19): a message of 2^61 bytes or more, which the block does
not hash (R144), gets its bit length modulo 2^64. -/
def padded (m : List Byte) : List Byte :=
  m ++ [0x80] ++ List.replicate (padZeros m.length) 0x00 ++ be64bytes (BitVec.ofNat 64 (8 * m.length))

/-- The hash state after the blocks of the padded message, from the IV (R154); for the length of a message too long for the block, see
`padded`. -/
def sm3 (m : List Byte) : HashState := (messageBlocks (padded m)).foldl cf iv

/-- `Digest(s)`: the 32 digest bytes of V (R57, R162). DESIGN CHOICE (log entry 19): R162 defines it when DVALID = 1, and this is the
function of V alone. -/
def digestBytes (v : HashState) : List Byte := v.toList.flatMap bytes32

end Sys2Proof.Machine
end

