-- ==== Sys2Proof/Safety.lean ====
section
/-! DEFINITION. The terms the statements use: a clean run, what the next host access asks for, the invariants of a run, and what it
means that a state has absorbed a message. -/

namespace Sys2Proof.Machine

/-- "FAULTS is empty at the end", the premise of a claim about a host program (R187). -/
def CleanRun (s : State) : Prop := s.faults = []

/-- The instruction the next host access decodes to, if the next event is such an access. -/
def nextInstr (s : State) : Option Instr :=
  match s.inputs with
  | .host r :: _ =>
    match presentedOp s.params r with
    | some op =>
      match decode op with
      | .ok i => some i
      | .error _ => none
    | none => none
  | _ => none

/-- The next event is a reset. -/
def ResetNext (s : State) : Prop := s.inputs.head? = some .reset

/-- The next step accepts command `c`, in either format (R39, R79). -/
def AcceptsNext (s : State) (c : Command) : Prop :=
  s.busy = false ∧ (nextInstr s = some c.toInstr ∨ nextInstr s = some (.wrCmd c.word))

/-- The next event is a CMD write, in either format and of any word, and BUSY = 1 holds it (R39, R201). -/
def HeldNext (s : State) : Prop :=
  s.busy = true ∧
    ((∃ w, s.inputs.head? = some (.host (.command w))) ∨ ∃ w, nextInstr s = some (.wrCmd w))

/-- The instructions that are CMD writes: the ones R201 holds while BUSY = 1. -/
def isCmdWrite : Instr → Bool
  | .nop | .init | .push0 | .push1 | .push2 | .push3 | .push4 | .finalize | .wrCmd _ => true
  | .wrDin _ | .rdDin | .rdStatus | .rdLenHi | .rdLenLo | .rdDigest _ => false

/-- What every step keeps. -/
structure Inv (s : State) : Prop where
  /-- "While PHASE = ACTIVE, BUFLEN = (LEN / 8) mod 64" (R24). -/
  buflen_of_len : s.phase = .active → s.buflen.toNat = s.len.toNat / 8 % 64
  /-- "LEN is a multiple of 8" (R144). -/
  len_whole_bytes : s.len.toNat % 8 = 0
  /-- FINALIZE empties the remainder (R152). -/
  final_empty : s.phase = .final → s.buflen = 0
  /-- A second compression is pending only during the first one of a FINALIZE (R33). -/
  pend_during_final : s.pend = true → s.busy = true ∧ s.phase = .final
  /-- "J goes 0, K, 2K, ..., 64" (R122). -/
  j_stride : s.busy = true → s.params.k.toNat ∣ s.j.val
  /-- A set ERR_ILL comes from a recorded ILLEGAL_CMD (R181, R187). -/
  err_ill_recorded : s.errIll = true → ∃ w, FaultRecord.illegalCommand w ∈ s.faults
  /-- A set ERR_SEQ comes from a recorded SEQUENCE (R182, R187). -/
  err_seq_recorded : s.errSeq = true → ∃ w, FaultRecord.sequence w ∈ s.faults
  /-- A set ERR_LEN comes from a recorded LENGTH_OVERFLOW (R183, R187). -/
  err_len_recorded : s.errLen = true → ∃ w n, FaultRecord.lengthOverflow w n ∈ s.faults

/-- While the engine runs, its fields are those of the compression of the latched block from the chaining state, after J rounds: A..H
are the working registers of CF (R104) and WQ[i] = W[J+i] (R30, R116). -/
def EngineOnTrack (s : State) : Prop :=
  s.busy = true →
    s.regs = runRounds s.v (words s.blk) s.j.val ∧
    ∀ i : Fin 16, s.j.val + i.val ≤ 67 → s.wq[i] = expandedWord (words s.blk) (s.j.val + i.val)

/-- The block is idle in phase ACTIVE and has absorbed exactly the bytes `m` since reset or INIT: V is CF over the whole blocks of m
from the IV, LEN counts its bits, and the remainder holds its last bytes (R21 to R24). -/
def Absorbed (s : State) (m : List Byte) : Prop :=
  s.busy = false ∧ s.pend = false ∧ s.phase = .active ∧
  s.v = (messageBlocks m).foldl cf iv ∧
  s.len.toNat = 8 * m.length ∧
  s.buflen.toNat = m.length % 64 ∧
  s.stream.remainder = m.drop (64 * (m.length / 64))

end Sys2Proof.Machine
end

