-- ==== Sys2Proof/Certificates/Slice0/Obligations.lean ====
section
/-! DEFINITION. The statements for the provers. -/

open Sys2Proof Sys2Proof.Machine

/-! ## Encoding -/

/-- R71, R75: a word of every row of the opcode table, written out bit by bit, with the instruction each stands for, and two words that
are refused. (A bus operation's code is its 8-bit word, and its DATA is then 0, by the model's choice: log entry 4.) -/
def Obligations.SampleWordsDecode : Prop :=
  decodeTableWord 32 0b00000000000000000000000000000000 = some .nop ∧
  decodeTableWord 32 0b00000000000000000000000000000001 = some .init ∧
  decodeTableWord 32 0b00000000000000000000000000000010 = some .push0 ∧
  decodeTableWord 32 0b00000000000000000000000000010010 = some .push1 ∧
  decodeTableWord 32 0b00000000000000000000000000100010 = some .push2 ∧
  decodeTableWord 32 0b00000000000000000000000000110010 = some .push3 ∧
  decodeTableWord 32 0b00000000000000000000000001000010 = some .push4 ∧
  decodeTableWord 32 0b00000000000000000000000000000011 = some .finalize ∧
  decodeTableWord 8 0b01000000 = some (.wrCmd 0) ∧
  decodeTableWord 8 0b01000100 = some (.wrDin 0) ∧
  decodeTableWord 8 0b00000100 = some .rdDin ∧
  decodeTableWord 8 0b00001000 = some .rdStatus ∧
  decodeTableWord 8 0b00010000 = some .rdLenHi ∧
  decodeTableWord 8 0b00010100 = some .rdLenLo ∧
  decodeTableWord 8 0b00111000 = some (.rdDigest 6) ∧
  decodeTableWord 32 0b00000000000000000000000001010010 = none ∧
  decodeTableWord 8 0b00001100 = none

/-- R75: a command word decodes to an instruction exactly when it is one of the eight, and then to the one the table gives. -/
def Obligations.LegalCommandWordsExactlyEight : Prop :=
  ∀ (w : Word) (i : Instr), decode (.cmd w) = .ok i ↔
    (w = 0x00000000 ∧ i = .nop) ∨ (w = 0x00000001 ∧ i = .init) ∨ (w = 0x00000002 ∧ i = .push0) ∨
    (w = 0x00000012 ∧ i = .push1) ∨ (w = 0x00000022 ∧ i = .push2) ∨ (w = 0x00000032 ∧ i = .push3) ∨
    (w = 0x00000042 ∧ i = .push4) ∨ (w = 0x00000003 ∧ i = .finalize)

/-- R76, R181: the illegal command words are those with RSV ≠ 0, OP 4 to 15, a PUSH with N 5 to 7, or a nonzero N on another opcode. An
accepted one sets ERR_ILL, is recorded, and has no other effect, written through the window or presented as a command word (the bus
answers the write as done: the model's choice, log entry 6); while BUSY = 1 it is held like every CMD write (R201; that the step is
then the engine's is the model's choice, log entry 5). -/
def Obligations.IllegalCommandWords : Prop :=
  ∀ (w : Word),
    (decodeCmd w = none ↔
      (w.toNat / 128 ≠ 0 ∨ 4 ≤ w.toNat % 16 ∨ (w.toNat % 16 = 2 ∧ 5 ≤ w.toNat / 16 % 8) ∨
        (w.toNat % 16 ≠ 2 ∧ w.toNat / 16 % 8 ≠ 0))) ∧
    (decodeCmd w = none → ∀ s : State,
      (s.busy = false →
        let t : State := { s with
          errIll := true
          faults := s.faults ++ [.illegalCommand w]
          responses := s.responses ++ [.written] }
        exec (.wrCmd w) s = .next t ∧ runRequest (.command w) s = .next t) ∧
      (s.busy = true →
        exec (.wrCmd w) s =
          .next (engineStep { s with inputs := .host (.access s.params.base .write 32 w) :: s.inputs }) ∧
        runRequest (.command w) s = .next (engineStep { s with inputs := .host (.command w) :: s.inputs })))

/-- R71: with width 32, the defined bus operation codes decode to their instructions, 0x20 + 4·i to the read of DIGESTi, and every other
code is rejected. -/
def Obligations.BusOperationCodes : Prop :=
  ∀ a : BusAccess, a.width = 32 →
    (a.bop = 0x40 → decode (.bus a) = .ok (.wrCmd a.data)) ∧
    (a.bop = 0x44 → decode (.bus a) = .ok (.wrDin a.data)) ∧
    (a.bop = 0x04 → decode (.bus a) = .ok .rdDin) ∧
    (a.bop = 0x08 → decode (.bus a) = .ok .rdStatus) ∧
    (a.bop = 0x10 → decode (.bus a) = .ok .rdLenHi) ∧
    (a.bop = 0x14 → decode (.bus a) = .ok .rdLenLo) ∧
    (∀ i : Fin 8, a.bop = BitVec.ofNat 7 (0x20 + 4 * i.val) → decode (.bus a) = .ok (.rdDigest i)) ∧
    (a.bop ∉ [0x40#7, 0x44#7, 0x04#7, 0x08#7, 0x10#7, 0x14#7, 0x20#7, 0x24#7, 0x28#7, 0x2C#7, 0x30#7, 0x34#7, 0x38#7, 0x3C#7] →
      ∃ e, decode (.bus a) = .error e)

/-- Decode and encode agree, in both directions: an operation decodes to an instruction exactly when, with the DATA of a read set
aside, it is the instruction's encoding. -/
def Obligations.DecodeIffCanonicalEncoding : Prop :=
  ∀ (op : HostOp) (i : Instr), decode op = .ok i ↔ op.canonical = encode i

/-- The decoder, written from the pseudocode of R53, R71 and R77, accepts exactly the operations that the register map of R38, the
width rule R52 and the word list of R75 allow. -/
def Obligations.DecodeAcceptsExactlyTheTables : Prop :=
  ∀ op : HostOp, (∃ i, decode op = .ok i) ↔ op.wellFormed = true

/-- The step of a state whose next access is an opcode-table word runs exactly the instruction the decoder reads from that word. (The
layout of a bus operation's bits is the model's choice: log entry 4.) -/
def Obligations.FetchedTableWordRuns : Prop :=
  ∀ (s : State) (nbits w : Nat) (i : Instr),
    decodeTableWord nbits w = some i → step (s.withFetchWord nbits w) = exec i s

/-! ## Steps -/

/-- A step runs the decoded instruction: when the next event is a host access that presents an operation and it decodes to `i`, the
step is `exec i` in the state without that event. (The list of events is the model's: log entry 5.) -/
def Obligations.StepRunsDecodedInstruction : Prop :=
  ∀ (s : State) (r : Request) (rest : List Event) (op : HostOp) (i : Instr),
    s.inputs = .host r :: rest → presentedOp s.params r = some op → decode op = .ok i →
      step s = exec i { s with inputs := rest }

/-- The other steps: the engine alone when nothing is due (R121), a turn of the engine, and an access to an address outside the
window, which is not this block's (R50). (The list of events is the model's choice, log entry 5; an access outside the window, log
entry 7.) -/
def Obligations.StepWithoutInstruction : Prop :=
  (∀ s : State, s.inputs = [] → step s = .next (engineStep s)) ∧
  (∀ (s : State) (rest : List Event), s.inputs = .engine :: rest →
    step s = .next (engineStep { s with inputs := rest })) ∧
  (∀ (s : State) (rest : List Event) (addr width : Nat) (dir : Dir) (data : Word),
    s.inputs = .host (.access addr dir width data) :: rest →
    (addr < s.params.base ∨ s.params.base + 64 ≤ addr) →
      step s = .next { s with inputs := rest })

/-- R53, R184: an access to the window that is narrow or wide, misaligned, to a reserved offset, a write of a read-only register or a
read of CMD gets the bus error and changes no state but the model's fault record; and no other 32-bit access gets one. -/
def Obligations.BusErrorChangesNothing : Prop :=
  ∀ (s : State) (a : BusAccess) (rest : List Event),
    s.inputs = .host (.access (s.params.base + a.off.toNat) a.dir a.width a.data) :: rest →
    ((a.width ≠ 32 ∨ a.off.toNat % 4 ≠ 0 ∨ a.off ∈ [0x0C#6, 0x18#6, 0x1C#6] ∨
        (a.dir = .write ∧ (a.off ∈ [0x08#6, 0x10#6, 0x14#6] ∨ 0x20 ≤ a.off.toNat)) ∨
        (a.dir = .read ∧ a.off = 0x00#6)) →
      step s = .next { s with
        inputs := rest
        faults := s.faults ++ [.busError a.dir a.off a.width]
        responses := s.responses ++ [.busError] }) ∧
    (¬ (a.width ≠ 32 ∨ a.off.toNat % 4 ≠ 0 ∨ a.off ∈ [0x0C#6, 0x18#6, 0x1C#6] ∨
        (a.dir = .write ∧ (a.off ∈ [0x08#6, 0x10#6, 0x14#6] ∨ 0x20 ≤ a.off.toNat)) ∨
        (a.dir = .read ∧ a.off = 0x00#6)) →
      ∃ i, decode (.bus a) = .ok i ∧ step s = exec i { s with inputs := rest })

/-- Every step of every state answers a next state. That no step of the model stops, on an error included, is the model's reading of R180
("The block keeps working"), log entry 10; that a CMD write held by BUSY is a step of the engine is log entry 5. -/
def Obligations.EveryStepAnswersNext : Prop :=
  ∀ s : State, ∃ t : State, step s = .next t

/-- R60, R201: a step leaves the list of events exactly as it is when the first is a CMD write that BUSY holds, and otherwise takes the
first and leaves the rest: a read, a DIN write, a turn of the engine and a reset are never held. (The list of events is the model's:
log entry 5.) R8: no step changes the parameters. -/
def Obligations.StepTakesEventsInOrder : Prop :=
  ∀ s t : State, step s = .next t →
    t.params = s.params ∧
    (HeldNext s → t.inputs = s.inputs) ∧
    (¬ HeldNext s → t.inputs = s.inputs.tail)

/-! ## Commands -/

/-- R160: NOP, accepted, in either phase, changes no state (the bus answers the write); while BUSY = 1 it is held like every command,
in the model's form of the hold: it goes back to the head of the events and the engine takes the step (log entry 5). -/
def Obligations.NopCompletes : Prop :=
  ∀ s : State,
    (s.busy = false → exec .nop s = .next { s with responses := s.responses ++ [.written] }) ∧
    (s.busy = true → exec .nop s = .next (engineStep { s with inputs := .host (.command 0x00000000) :: s.inputs }))

/-- R161: INIT, accepted, in either phase. V is the IV; LEN, BUFLEN, PHASE, the three error bits and PEND are as given; DIN and all else
is unchanged, FAULTS included. STATUS then reads 0x00000000, LEN_HI and LEN_LO 0. (That BUF, A..H, WQ, J and BLK, which no rule defines
then, stand as they were is the model's choice: log entry 8.) -/
def Obligations.InitCompletes : Prop :=
  ∀ s : State, s.busy = false →
    exec .init s = .next { s with
      v := #v[0x7380166F, 0x4914B2B9, 0x172442D7, 0xDA8A0600, 0xA96F30BC, 0x163138AA, 0xE38DEE4D, 0xB0FB0E4E]
      len := 0
      buflen := 0
      phase := .active
      errIll := false
      errSeq := false
      errLen := false
      pend := false
      responses := s.responses ++ [.written] } ∧
    (∀ t : State, exec .init s = .next t → statusWord t = 0x00000000 ∧ lenHi t = 0 ∧ lenLo t = 0)

/-- R141: PUSH(N), accepted, in its four cases. In phase FINAL it raises SEQUENCE; in phase ACTIVE, when LEN + 8·N exceeds 2^64 − 1, it
raises LENGTH_OVERFLOW; otherwise LEN grows by 8·N and the N bytes of DIN, most significant first, go to BUF[BUFLEN..], and if they
fill the buffer the full block is latched, its compression starts, and the bytes left start the next remainder. Everything not
written here is unchanged. (That a rejected PUSH is answered as a completed write is log entry 6; that the bytes of BUF beyond the new
remainder, which R23 leaves undefined, keep what the pseudocode last wrote is log entry 8.) -/
def Obligations.PushCompletes : Prop :=
  ∀ (n : Fin 5) (s : State), s.busy = false →
    (s.phase = .final →
      exec (pushInstr n) s = .next { s with
        errSeq := true
        faults := s.faults ++ [.sequence (BitVec.ofNat 32 (2 + 16 * n.val))]
        responses := s.responses ++ [.written] }) ∧
    (s.phase = .active → 2 ^ 64 - 1 < s.len.toNat + 8 * n.val →
      exec (pushInstr n) s = .next { s with
        errLen := true
        faults := s.faults ++ [.lengthOverflow (BitVec.ofNat 32 (2 + 16 * n.val)) s.len]
        responses := s.responses ++ [.written] }) ∧
    (s.phase = .active → s.len.toNat + 8 * n.val ≤ 2 ^ 64 - 1 → s.buflen.toNat + n.val < 64 →
      exec (pushInstr n) s = .next { s with
        len := BitVec.ofNat 64 (s.len.toNat + 8 * n.val)
        buf := Vector.ofFn fun i : Fin 64 =>
          if s.buflen.toNat ≤ i.val ∧ i.val < s.buflen.toNat + n.val then
            s.din.extractLsb' (24 - 8 * (i.val - s.buflen.toNat)) 8
          else s.buf[i]
        buflen := BitVec.ofNat 6 (s.buflen.toNat + n.val)
        responses := s.responses ++ [.written] }) ∧
    (s.phase = .active → s.len.toNat + 8 * n.val ≤ 2 ^ 64 - 1 → 64 ≤ s.buflen.toNat + n.val →
      let block : Block := Vector.ofFn fun i : Fin 64 =>
        if i.val < s.buflen.toNat then s.buf[i] else s.din.extractLsb' (24 - 8 * (i.val - s.buflen.toNat)) 8
      exec (pushInstr n) s = .next { s with
        len := BitVec.ofNat 64 (s.len.toNat + 8 * n.val)
        buf := Vector.ofFn fun i : Fin 64 =>
          if i.val < s.buflen.toNat + n.val - 64 then
            s.din.extractLsb' (24 - 8 * (64 - s.buflen.toNat + i.val)) 8
          else block[i]
        buflen := BitVec.ofNat 6 (s.buflen.toNat + n.val - 64)
        blk := block
        regs := ⟨s.v[0], s.v[1], s.v[2], s.v[3], s.v[4], s.v[5], s.v[6], s.v[7]⟩
        wq := Vector.ofFn fun i : Fin 16 =>
          block[4 * i.val] ++ block[4 * i.val + 1] ++ block[4 * i.val + 2] ++ block[4 * i.val + 3]
        j := 0
        busy := true
        responses := s.responses ++ [.written] })

/-- R152: FINALIZE, accepted, in its three cases. In phase FINAL it raises SEQUENCE. With r = BUFLEN at most 55 one compression starts,
of the remainder, 0x80, zeros and the 64-bit length; with r at least 56 the first of two starts, of the remainder, 0x80 and zeros,
with PEND set. BUFLEN becomes 0 and PHASE becomes FINAL; LEN and everything not written here is unchanged. (That a rejected FINALIZE is
answered as a completed write is log entry 6; that BUF, undefined once BUFLEN is 0, keeps its bytes is log entry 8.) -/
def Obligations.FinalizeCompletes : Prop :=
  ∀ s : State, s.busy = false →
    (s.phase = .final →
      exec .finalize s = .next { s with
        errSeq := true
        faults := s.faults ++ [.sequence 0x00000003]
        responses := s.responses ++ [.written] }) ∧
    (s.phase = .active →
      let twoBlocks : Bool := 56 ≤ s.buflen.toNat
      let block : Block := Vector.ofFn fun i : Fin 64 =>
        if i.val < s.buflen.toNat then s.buf[i]
        else if i.val = s.buflen.toNat then 0x80
        else if 56 ≤ i.val ∧ twoBlocks = false then s.len.extractLsb' (56 - 8 * (i.val - 56)) 8
        else 0x00
      exec .finalize s = .next { s with
        buflen := 0
        phase := .final
        blk := block
        regs := ⟨s.v[0], s.v[1], s.v[2], s.v[3], s.v[4], s.v[5], s.v[6], s.v[7]⟩
        wq := Vector.ofFn fun i : Fin 16 =>
          block[4 * i.val] ++ block[4 * i.val + 1] ++ block[4 * i.val + 2] ++ block[4 * i.val + 3]
        j := 0
        busy := true
        pend := twoBlocks || s.pend
        responses := s.responses ++ [.written] })

/-- R169: a write of CMD performs the command its word decodes to, exactly as that command's own row does, and answers a next state; it
is held while BUSY = 1, staying the first thing the host has in store while the engine takes the step (the model's form of the hold,
log entry 5). An illegal word's write is answered as completed by the model's choice (log entry 6). -/
def Obligations.WriteCmdPerformsItsCommand : Prop :=
  ∀ (w : Word) (s : State),
    (s.busy = false → ∀ c, decodeCmd w = some c → exec (.wrCmd w) s = exec c.toInstr s) ∧
    (s.busy = false → decodeCmd w = none →
      exec (.wrCmd w) s = .next (respond .written (raise (.illegalCommand w) s))) ∧
    (s.busy = false → ∃ t, exec (.wrCmd w) s = .next t ∧ t.responses = s.responses ++ [.written]) ∧
    (s.busy = true → exec (.wrCmd w) s =
      .next (engineStep { s with inputs := .host (.access s.params.base .write 32 w) :: s.inputs }))

/-- R201: while BUSY = 1 a CMD write is held. It goes back to the head of what the host has in store, the engine takes the step, and the
command's rule has no effect: LEN, BUF, BUFLEN, PHASE, the error bits, DIN, FAULTS and the responses are unchanged. (That a held
write is the engine's step is the model's form of the hold: log entry 5.) -/
def Obligations.BusyHoldsCommands : Prop :=
  ∀ (i : Instr) (s : State), isCmdWrite i = true → s.busy = true →
    exec i s = .next (engineStep { s with inputs := .host (requestOf s.params (encode i)) :: s.inputs }) ∧
    ∀ t, exec i s = .next t →
      t.inputs = .host (requestOf s.params (encode i)) :: s.inputs ∧
      t.len = s.len ∧ t.buf = s.buf ∧ t.buflen = s.buflen ∧ t.phase = s.phase ∧ t.errIll = s.errIll ∧ t.errSeq = s.errSeq ∧
      t.errLen = s.errLen ∧ t.din = s.din ∧ t.faults = s.faults ∧ t.responses = s.responses ∧ t.draws = s.draws

/-! ## Register accesses -/

/-- R167: a write of DIN sets DIN and nothing else, in both phases and also while BUSY = 1. -/
def Obligations.WriteDinCompletes : Prop :=
  ∀ (v : Word) (s : State),
    exec (.wrDin v) s = .next { s with din := v, responses := s.responses ++ [.written] }

/-- R168: a read of DIN returns the last value written, 0 after reset, and has no side effect. -/
def Obligations.ReadDinReturnsLastWrite : Prop :=
  ∀ (v : Word) (s : State) (p : Params),
    (State.resetWith p).din = 0x00000000 ∧
    exec .rdDin s = .next { s with responses := s.responses ++ [.value s.din] } ∧
    ∀ t, exec (.wrDin v) s = .next t →
      exec .rdDin t = .next { t with responses := t.responses ++ [.value v] }

/-- R165: a read of STATUS returns the sum the rule gives, and has no side effect. -/
def Obligations.ReadStatusCompletes : Prop :=
  ∀ s : State, exec .rdStatus s = .next { s with responses := s.responses ++ [.value (BitVec.ofNat 32 (
      s.buflen.toNat * 2 ^ 16 + s.errLen.toNat * 2 ^ 10 + s.errSeq.toNat * 2 ^ 9 + s.errIll.toNat * 2 ^ 8
        + (decide (s.phase = .final) && !s.busy).toNat * 2 ^ 2 + (decide (s.phase = .final)).toNat * 2 ^ 1 + s.busy.toNat))] }

/-- R40: the fields of STATUS, the reserved ones read as 0. -/
def Obligations.StatusFields : Prop :=
  ∀ s : State,
    (statusWord s).getLsbD 0 = s.busy ∧
    (statusWord s).getLsbD 1 = decide (s.phase = .final) ∧
    (statusWord s).getLsbD 2 = (decide (s.phase = .final) && !s.busy) ∧
    (statusWord s).extractLsb' 3 5 = 0 ∧
    (statusWord s).getLsbD 8 = s.errIll ∧
    (statusWord s).getLsbD 9 = s.errSeq ∧
    (statusWord s).getLsbD 10 = s.errLen ∧
    (statusWord s).extractLsb' 11 5 = 0 ∧
    (statusWord s).extractLsb' 16 6 = s.buflen ∧
    (statusWord s).extractLsb' 22 10 = 0

/-- R166: the two LEN reads return LEN[63:32] and LEN[31:0] and have no side effect; the two values together are LEN. -/
def Obligations.ReadLenHalves : Prop :=
  ∀ s : State,
    exec .rdLenHi s = .next { s with responses := s.responses ++ [.value (s.len.extractLsb' 32 32)] } ∧
    exec .rdLenLo s = .next { s with responses := s.responses ++ [.value (s.len.extractLsb' 0 32)] } ∧
    (s.len.extractLsb' 32 32).toNat * 2 ^ 32 + (s.len.extractLsb' 0 32).toNat = s.len.toNat

/-- R164: a read of DIGESTi returns V[i] when PHASE = FINAL and BUSY = 0, and some u32 otherwise; the register contents are unchanged
(only the model's count of free values moves, on an unspecified read: log entry 3). -/
def Obligations.ReadDigestCompletes : Prop :=
  ∀ (i : Fin 8) (s : State),
    (s.phase = .final → s.busy = false →
      exec (.rdDigest i) s = .next { s with responses := s.responses ++ [.value s.v[i]] }) ∧
    (¬ (s.phase = .final ∧ s.busy = false) →
      ∃ (x : Word) (d : Nat), exec (.rdDigest i) s = .next { s with
        responses := s.responses ++ [.value x]
        draws := d })

/-- R163: while DVALID = 1, two reads of the same DIGEST register return the same value, and no other read of the digest between them
changes that. -/
def Obligations.DigestReadsAreIdempotent : Prop :=
  ∀ (i k : Fin 8) (s t u w : State), s.phase = .final → s.busy = false →
    exec (.rdDigest i) s = .next t → exec (.rdDigest k) t = .next u → exec (.rdDigest i) u = .next w →
      ∃ x y : Word, t = { s with responses := s.responses ++ [.value x] } ∧
        w.responses = s.responses ++ [.value x, .value y, .value x] ∧ w.v = s.v

/-- R57, R162: digest byte 4·i + k is V[i][31 − 8k : 24 − 8k], and there are 32 of them. (R162 defines the digest when DVALID = 1; as a
function of V alone, log entry 19.) -/
def Obligations.DigestByteOrder : Prop :=
  ∀ v : HashState, (digestBytes v).length = 32 ∧
    ∀ (i : Fin 8) (k : Fin 4), (digestBytes v)[4 * i.val + k.val]? = some (v[i].extractLsb' (24 - 8 * k.val) 8)

/-! ## Errors -/

/-- R182: PUSH (any N) or FINALIZE, accepted in phase FINAL, sets ERR_SEQ and is recorded with its command word; V, LEN, PHASE and the
rest are unchanged, so DVALID stays 1. (That the bus answers the rejected command as a completed write is the model's choice: log
entry 6.) -/
def Obligations.SequenceErrorKeepsDigest : Prop :=
  ∀ (c : Command) (s : State), (∃ n, c = .push n) ∨ c = .finalize → s.phase = .final → s.busy = false →
    exec c.toInstr s = .next { s with
      errSeq := true
      faults := s.faults ++ [.sequence c.word]
      responses := s.responses ++ [.written] } ∧
    ∀ t, exec c.toInstr s = .next t → dvalid t = true

/-- R186: the order of the checks. Any write to the window that fails the bus check, one not of 32 bits or not to CMD or DIN, raises
BUS_ERROR whatever its data says; an illegal
word raises ILLEGAL_CMD in either phase; a PUSH in phase FINAL raises SEQUENCE whatever LEN is. Each records its one cause only. -/
def Obligations.ErrorPriority : Prop :=
  (∀ (a : BusAccess) (s : State), a.dir = .write → (a.width ≠ 32 ∨ (a.off ≠ 0x00 ∧ a.off ≠ 0x04)) →
    ∃ t, runRequest (requestOf s.params (.bus a)) s = .next t ∧ t.faults = s.faults ++ [.busError .write a.off a.width] ∧
      t.errIll = s.errIll ∧ t.errSeq = s.errSeq ∧ t.errLen = s.errLen) ∧
  (∀ (w : Word) (s : State), decodeCmd w = none → s.busy = false →
    ∃ t, exec (.wrCmd w) s = .next t ∧ t.faults = s.faults ++ [.illegalCommand w] ∧
      t.errIll = true ∧ t.errSeq = s.errSeq ∧ t.errLen = s.errLen) ∧
  (∀ (n : Fin 5) (s : State), s.phase = .final → s.busy = false →
    ∃ t, exec (pushInstr n) s = .next t ∧ t.faults = s.faults ++ [.sequence (Command.push n).word] ∧
      t.errIll = s.errIll ∧ t.errSeq = true ∧ t.errLen = s.errLen)

/-- R34, R186, R187: a step records at most one cause, and no step, INIT and reset included, takes a record away. -/
def Obligations.OneCausePerStepNeverCleared : Prop :=
  ∀ s t : State, step s = .next t → ∃ l : List FaultRecord, t.faults = s.faults ++ l ∧ l.length ≤ 1

/-- R26, R190: a set error bit stays set unless the step is a reset or accepts INIT, and those two clear all three bits. -/
def Obligations.ErrorBitsAreSticky : Prop :=
  ∀ s t : State, step s = .next t →
    (¬ ResetNext s → ¬ AcceptsNext s .init →
      (s.errIll = true → t.errIll = true) ∧ (s.errSeq = true → t.errSeq = true) ∧ (s.errLen = true → t.errLen = true)) ∧
    (ResetNext s ∨ AcceptsNext s .init → t.errIll = false ∧ t.errSeq = false ∧ t.errLen = false)

/-! ## The round functions -/

/-- R92, R93: bit by bit, FF is the exclusive-or in rounds 0 to 15 and the majority after, GG the exclusive-or in rounds 0 to 15 and the
choice of Y where X is 1, Z where X is 0, after. (For a j beyond 63, log entry 20.) -/
def Obligations.BooleanFunctionsBitwise : Prop :=
  ∀ (j i : Nat) (x y z : Word), i < 32 →
    let a := x.getLsbD i
    let b := y.getLsbD i
    let c := z.getLsbD i
    (ff j x y z).getLsbD i = (if j < 16 then (a != b) != c else decide (2 ≤ a.toNat + b.toNat + c.toNat)) ∧
    (gg j x y z).getLsbD i = (if j < 16 then (a != b) != c else if a then b else c)

/-- R10: rotl moves bit i − n to bit i, the amount and the bit numbers taken modulo 32. R94, R110: P0 rotates by 9 and 17, P1 by 15 and
23; both are linear over exclusive-or, and keep the all-zero and the all-one word. -/
def Obligations.PermutationsLinear : Prop :=
  (∀ (x : Word) (n i : Nat), i < 32 → (rotl x n).getLsbD i = x.getLsbD ((i + 32 - n % 32) % 32)) ∧
  (∀ x : Word, p0 x = x ^^^ rotl x 9 ^^^ rotl x 17) ∧ (∀ x : Word, p1 x = x ^^^ rotl x 15 ^^^ rotl x 23) ∧
  (∀ x y : Word, p0 (x ^^^ y) = p0 x ^^^ p0 y) ∧ (∀ x y : Word, p1 (x ^^^ y) = p1 x ^^^ p1 y) ∧
  p0 0 = 0 ∧ p1 0 = 0 ∧ p0 0xFFFFFFFF = 0xFFFFFFFF ∧ p1 0xFFFFFFFF = 0xFFFFFFFF

/-- R95, R96: one round, all right-hand sides reading the values before it. (The spec's j is 0 to 63; beyond it, log entry 20.) -/
def Obligations.RoundUpdatesRegisters : Prop :=
  ∀ (j : Nat) (r : WorkRegs) (w w' : Word),
    let ss1 := rotl (rotl r.a 12 + r.e + rotl (if j < 16 then 0x79CC4519 else 0x7A879D8A) (j % 32)) 7
    let ss2 := ss1 ^^^ rotl r.a 12
    let tt1 := ff j r.a r.b r.c + r.d + ss2 + w'
    let tt2 := gg j r.e r.f r.g + r.h + ss1 + w
    compressRound j r w w' =
      { d := r.c, c := rotl r.b 9, b := r.a, a := tt1, h := r.g, g := rotl r.f 19, f := r.e
        e := tt2 ^^^ rotl tt2 9 ^^^ rotl tt2 17 }

/-- R111, R112: the recurrence of the expanded words, and the mixed words for every j = 0 to 63. -/
def Obligations.ScheduleRecurrence : Prop :=
  ∀ m : Window,
    (∀ i : Fin 16, expandedWord m i.val = m[i]) ∧
    (∀ j : Nat, 16 ≤ j → j ≤ 67 → expandedWord m j =
      p1 (expandedWord m (j - 16) ^^^ expandedWord m (j - 9) ^^^ rotl (expandedWord m (j - 3)) 15)
        ^^^ rotl (expandedWord m (j - 13)) 7 ^^^ expandedWord m (j - 6)) ∧
    (∀ j : Nat, j ≤ 63 → mixedWord m j = expandedWord m j ^^^ expandedWord m (j + 4))

/-- R116: after j window steps from the block's words, WQ[i] is W[j+i] for every i with j + i ≤ 67. -/
def Obligations.WindowHoldsSchedule : Prop :=
  ∀ (m : Window) (j : Nat) (i : Fin 16), j + i.val ≤ 67 → (windowStep^[j] m)[i] = expandedWord m (j + i.val)

/-- R55, R58: four bytes taken from DIN and parsed again as a big-endian word are DIN, so a block pushed word by word gives the engine
the words pushed. -/
def Obligations.PushedWordIsBlockWord : Prop :=
  (∀ w : Word, be32 (wordByte w 0) (wordByte w 1) (wordByte w 2) (wordByte w 3) = w) ∧
  (∀ m : Window, words (blockOf (m.toList.flatMap fun w => dinBytes w 4)) = m)

/-! ## The engine -/

/-- R121: with BUSY = 0 the engine has no step; its steps change no host-visible field but V and BUSY, and a round step not even
those. -/
def Obligations.EngineStepFrame : Prop :=
  ∀ s : State,
    (s.busy = false → engineStep s = s) ∧
    (s.busy = true → s.j.val < 64 → engineStep s = { s with
      regs := (engineStep s).regs, wq := (engineStep s).wq, j := (engineStep s).j }) ∧
    (s.busy = true → s.j.val = 64 → engineStep s = { s with
      v := (engineStep s).v, busy := (engineStep s).busy, pend := (engineStep s).pend, blk := (engineStep s).blk
      regs := (engineStep s).regs, wq := (engineStep s).wq, j := (engineStep s).j })

/-- R122: a round step performs the rounds J to J + K − 1, each with W[j] = WQ[0] and W'[j] = WQ[0] ⊕ WQ[4] of the window slid so far, and
leaves J + K. -/
def Obligations.RoundStepPerformsKRounds : Prop :=
  ∀ s : State, s.busy = true → s.j.val < 64 → s.j.val + s.params.k.toNat ≤ 64 →
    let q (r : Nat) : Window := windowStep^[r] s.wq
    (engineStep s).j.val = s.j.val + s.params.k.toNat ∧
    (engineStep s).wq = q s.params.k.toNat ∧
    (engineStep s).regs = (List.range s.params.k.toNat).foldl
      (fun regs r => compressRound (s.j.val + r) regs (q r)[0] ((q r)[0] ^^^ (q r)[4])) s.regs

/-- R124: the finish step. V is fed forward; with PEND = 1 the length block's compression starts, otherwise BUSY falls. (That A..H, WQ, J
and BLK, undefined while BUSY = 0 by R29 to R32, then keep their values is the model's choice: log entry 8.) -/
def Obligations.FinishStepFeedsForward : Prop :=
  ∀ s : State, s.busy = true → s.j.val = 64 →
    let v : HashState := #v[s.v[0] ^^^ s.regs.a, s.v[1] ^^^ s.regs.b, s.v[2] ^^^ s.regs.c, s.v[3] ^^^ s.regs.d,
      s.v[4] ^^^ s.regs.e, s.v[5] ^^^ s.regs.f, s.v[6] ^^^ s.regs.g, s.v[7] ^^^ s.regs.h]
    (s.pend = false → engineStep s = { s with v := v, busy := false }) ∧
    (s.pend = true → engineStep s = startCompression { s with v := v, pend := false }
      (Vector.ofFn fun i : Fin 64 => if i.val < 56 then 0x00 else s.len.extractLsb' (56 - 8 * (i.val - 56)) 8))

/-- R125, R126: a compression of block B started with chaining state V, nothing pending, takes 64/K round steps, during which V and BUSY
stand, and one finish step, after which V is CF(V, B) and BUSY is 0. -/
def Obligations.EngineComputesCf : Prop :=
  ∀ (s : State) (b : Block), s.pend = false →
    (∀ n, n ≤ 64 / s.params.k.toNat →
      (engineStep^[n] (startCompression s b)).busy = true ∧ (engineStep^[n] (startCompression s b)).v = s.v) ∧
    (engineStep^[64 / s.params.k.toNat + 1] (startCompression s b)).busy = false ∧
    (engineStep^[64 / s.params.k.toNat + 1] (startCompression s b)).v = cf s.v b

/-- R124, R125: with PEND = 1, the engine goes on to the length block, and after both compressions V is CF of CF, BUSY and PEND are 0. -/
def Obligations.EngineChainsLengthBlock : Prop :=
  ∀ (s : State) (b : Block), s.pend = true →
    (settle (startCompression s b)).v = cf (cf s.v b) (lenBlock s.len) ∧
    (settle (startCompression s b)).busy = false ∧ (settle (startCompression s b)).pend = false

/-- R126: from any state, BUSY is 0 after 2·(64/K + 1) engine steps with no host action. -/
def Obligations.EngineStopsWithinBound : Prop :=
  ∀ s : State, (engineStep^[2 * (64 / s.params.k.toNat + 1)] s).busy = false

/-- R127: no result depends on K or STYLE. An instruction run with BUSY = 0 under other parameters, once the engine is done, leaves the
same state but for the parameters. (The parameters stand in the state by the model's choice, log entry 2. The equality covers A..H, WQ, J
and BLK once BUSY = 0 too, beyond the values R127 speaks of: they keep what the engine last wrote, log entry 8.) -/
def Obligations.ResultsIndependentOfParameters : Prop :=
  ∀ (i : Instr) (s t : State) (p : Params), s.busy = false → exec i s = .next t →
    ∃ u, exec i { s with params := p } = .next u ∧ settle u = { settle t with params := p }

/-- R167, R204: "the engine never reads DIN": a DIN write and an engine step may change places. -/
def Obligations.DinWriteCommutesWithEngine : Prop :=
  ∀ (v : Word) (s t : State), exec (.wrDin v) s = .next t → exec (.wrDin v) (engineStep s) = .next (engineStep t)

/-! ## Streams and digests -/

/-- R142: the source's push of a slice gives the same V, LEN, remainder and BUFLEN as pushing its bytes one by one. (Where R140 does not
define the push, both functions take LEN modulo 2^64: the model's choice, log entry 19.) -/
def Obligations.SlicePushIsBytewise : Prop :=
  ∀ (s : Stream) (b : List Byte), (pushSlice s b).Same (b.foldl pushOne s)

/-- R143: pushing x and then y gives what pushing x followed by y gives. (Where R140 does not define a push, LEN is taken modulo 2^64: the
model's choice, log entry 19.) -/
def Obligations.ChunkingInvariance : Prop :=
  ∀ (s : Stream) (x y : List Byte), (pushSlice (pushSlice s x) y).Same (pushSlice s (x ++ y))

/-- R142, R143: an accepted PUSH(N), once the engine is done, is the push of its N bytes of DIN. -/
def Obligations.PushCommandIsSlicePush : Prop :=
  ∀ (n : Fin 5) (s : State), s.busy = false → s.pend = false → s.phase = .active → s.len.toNat + 8 * n.val ≤ 2 ^ 64 - 1 →
    ∃ t, exec (pushInstr n) s = .next t ∧
      (settle t).stream.Same (pushSlice s.stream ((List.range n.val).map fun k => s.din.extractLsb' (24 - 8 * k) 8))

/-- R21 to R24, R141: a state that has absorbed the message m has, after an accepted PUSH(N) and the engine's steps, absorbed m and the N
bytes of DIN. -/
def Obligations.PushAbsorbsDinBytes : Prop :=
  ∀ (n : Fin 5) (s : State) (m : List Byte), Absorbed s m → 8 * (m.length + n.val) ≤ 2 ^ 64 - 1 →
    ∃ t, exec (pushInstr n) s = .next t ∧
      Absorbed (settle t) (m ++ (List.range n.val).map fun k => s.din.extractLsb' (24 - 8 * k) 8)

/-- R154: FINALIZE on a state that has absorbed the message m leaves, once the engine is done, the SM3 digest of m: V is CF over the
64-byte blocks of m ‖ 0x80 ‖ zeros ‖ 64-bit length, in order, from the IV, and DVALID is 1. -/
def Obligations.FinalizeYieldsSm3 : Prop :=
  ∀ (s : State) (m : List Byte), Absorbed s m →
    ∃ t, exec .finalize s = .next t ∧ (settle t).v = sm3 m ∧ dvalid (settle t) = true ∧ (settle t).len = s.len

/-- R154, R155: the padded message is a whole number of blocks: floor(L/64) + 1 of them when L mod 64 ≤ 55, else floor(L/64) + 2; the
number of zero bytes is the least that gives one. -/
def Obligations.PaddedBlockCount : Prop :=
  ∀ m : List Byte,
    (padded m).length = 64 * (m.length / 64 + if m.length % 64 ≤ 55 then 1 else 2) ∧
    (messageBlocks (padded m)).length = m.length / 64 + (if m.length % 64 ≤ 55 then 1 else 2) ∧
    ∀ z : Nat, (m.length + 1 + z + 8) % 64 = 0 → padZeros m.length ≤ z

/-- R205, R202: of the commands, a NOP or a rejected PUSH or FINALIZE leaves the digest as it is, and INIT alone discards it. Over every
step from a state with DVALID = 1, whatever the next event is (an illegal word, a read, a DIN write, a bus error included), the digest
stands unless the step is a reset or accepts INIT, and those two discard it. -/
def Obligations.OnlyInitOrResetDiscardsTheDigest : Prop :=
  (∀ (c : Command) (s t : State), dvalid s = true → exec c.toInstr s = .next t →
    (c ≠ .init → dvalid t = true ∧ t.v = s.v) ∧ (c = .init → dvalid t = false)) ∧
  (∀ s t : State, dvalid s = true → step s = .next t →
    (¬ ResetNext s → ¬ AcceptsNext s .init → dvalid t = true ∧ t.v = s.v) ∧
    (ResetNext s ∨ AcceptsNext s .init → dvalid t = false))

/-! ## Whole-machine rules -/

/-- R21: V changes only at the finish step of a compression, at INIT and at reset. -/
def Obligations.HashStateChangesOnlyByRule : Prop :=
  ∀ s t : State, step s = .next t →
    t.v = s.v ∨ (s.busy = true ∧ s.j.val = 64 ∧ t.v = feedForward s.v s.regs) ∨
      ((ResetNext s ∨ AcceptsNext s .init) ∧ t.v = iv)

/-- R22, R144: LEN grows by 8·N, without wrap-around, at a PUSH(N) accepted in phase ACTIVE with LEN + 8·N at most 2^64 − 1; is 0 after a
reset and after INIT; and is unchanged by every other step, a rejected PUSH included. -/
def Obligations.LenChangesOnlyByRule : Prop :=
  ∀ s t : State, step s = .next t →
    (ResetNext s ∨ AcceptsNext s .init → t.len = 0) ∧
    (∀ n : Fin 5, AcceptsNext s (.push n) → s.phase = .active → s.len.toNat + 8 * n.val ≤ 2 ^ 64 - 1 →
      t.len.toNat = s.len.toNat + 8 * n.val) ∧
    (¬ ResetNext s → ¬ AcceptsNext s .init →
      (¬ ∃ n : Fin 5, AcceptsNext s (.push n) ∧ s.phase = .active ∧ s.len.toNat + 8 * n.val ≤ 2 ^ 64 - 1) →
      t.len = s.len)

/-- R27: DIN keeps its value until the host writes it again, or a reset. -/
def Obligations.DinChangesOnlyByRule : Prop :=
  ∀ s t : State, step s = .next t →
    t.din = s.din ∨ (ResetNext s ∧ t.din = 0) ∨ ∃ v, nextInstr s = some (.wrDin v) ∧ t.din = v

/-- R25: PHASE becomes FINAL only when a FINALIZE is accepted, and ACTIVE only at INIT and at reset. -/
def Obligations.PhaseChangesOnlyByRule : Prop :=
  ∀ s t : State, step s = .next t →
    (s.phase = .active → t.phase = .final → AcceptsNext s .finalize) ∧
    (s.phase = .final → t.phase = .active → ResetNext s ∨ AcceptsNext s .init)

/-! ## Reset and invariants -/

/-- R20, R200: the state after reset, in every field the spec gives a value. -/
def Obligations.ResetValues : Prop :=
  ∀ p : Params,
    let s := State.resetWith p
    s.v = iv ∧ s.len = 0 ∧ s.buflen = 0 ∧ s.phase = .active ∧ s.errIll = false ∧ s.errSeq = false ∧ s.errLen = false ∧
    s.din = 0x00000000 ∧ s.busy = false ∧ s.pend = false ∧ s.faults = [] ∧
    statusWord s = 0x00000000 ∧ lenHi s = 0 ∧ lenLo s = 0 ∧ dvalid s = false

/-- R200, R202: a reset, at any time, also while BUSY = 1, gives the reset values and leaves nothing of a compression in progress or of a
pending length block; FAULTS is kept. (That the parameters are unchanged is log entry 2, that the reset takes itself off the list of events
log entry 5, that the record of bus answers is kept log entry 6: the model's choices.) -/
def Obligations.ResetAtAnyTime : Prop :=
  ∀ (s : State) (rest : List Event), s.inputs = .reset :: rest →
    ∃ t, step s = .next t ∧
      t.v = iv ∧ t.len = 0 ∧ t.buflen = 0 ∧ t.phase = .active ∧ t.errIll = false ∧ t.errSeq = false ∧ t.errLen = false ∧
      t.din = 0x00000000 ∧ t.busy = false ∧ t.pend = false ∧ t.faults = s.faults ∧
      statusWord t = 0x00000000 ∧ lenHi t = 0 ∧ lenLo t = 0 ∧ dvalid t = false ∧
      t.params = s.params ∧ t.inputs = rest ∧ t.responses = s.responses

/-- The invariants hold after reset, for every parameter value. -/
def Obligations.ResetMeetsInvariants : Prop :=
  ∀ p : Params, Inv (State.resetWith p) ∧ EngineOnTrack (State.resetWith p) ∧ Absorbed (State.resetWith p) []

/-- Every step keeps the invariant `Inv` (R24, R33, R122, R144, R152, R181 to R183, R187). -/
def Obligations.StepKeepsInv : Prop :=
  ∀ s t : State, Inv s → step s = .next t → Inv t

/-- Every step keeps the engine on the track of CF (R30, R104, R116, R122). -/
def Obligations.StepKeepsEngineOnTrack : Prop :=
  ∀ s t : State, EngineOnTrack s → step s = .next t → EngineOnTrack t
end

