-- ==== Sys2Proof/Laws/State.lean ====
section
/-! SUPPORT. One lemma per field and update, for the named updates of the state: what each update leaves as it was, and what it writes. -/

namespace Sys2Proof.Machine
/-! `respond` -/
@[simp] theorem respond_params (r : Response) (s : State) : (respond r s).params = s.params := rfl
@[simp] theorem respond_v (r : Response) (s : State) : (respond r s).v = s.v := rfl
@[simp] theorem respond_len (r : Response) (s : State) : (respond r s).len = s.len := rfl
@[simp] theorem respond_buf (r : Response) (s : State) : (respond r s).buf = s.buf := rfl
@[simp] theorem respond_buflen (r : Response) (s : State) : (respond r s).buflen = s.buflen := rfl
@[simp] theorem respond_phase (r : Response) (s : State) : (respond r s).phase = s.phase := rfl
@[simp] theorem respond_errIll (r : Response) (s : State) : (respond r s).errIll = s.errIll := rfl
@[simp] theorem respond_errSeq (r : Response) (s : State) : (respond r s).errSeq = s.errSeq := rfl
@[simp] theorem respond_errLen (r : Response) (s : State) : (respond r s).errLen = s.errLen := rfl
@[simp] theorem respond_din (r : Response) (s : State) : (respond r s).din = s.din := rfl
@[simp] theorem respond_busy (r : Response) (s : State) : (respond r s).busy = s.busy := rfl
@[simp] theorem respond_regs (r : Response) (s : State) : (respond r s).regs = s.regs := rfl
@[simp] theorem respond_wq (r : Response) (s : State) : (respond r s).wq = s.wq := rfl
@[simp] theorem respond_j (r : Response) (s : State) : (respond r s).j = s.j := rfl
@[simp] theorem respond_blk (r : Response) (s : State) : (respond r s).blk = s.blk := rfl
@[simp] theorem respond_pend (r : Response) (s : State) : (respond r s).pend = s.pend := rfl
@[simp] theorem respond_faults (r : Response) (s : State) : (respond r s).faults = s.faults := rfl
@[simp] theorem respond_inputs (r : Response) (s : State) : (respond r s).inputs = s.inputs := rfl
@[simp] theorem respond_responses (r : Response) (s : State) : (respond r s).responses = s.responses ++ [r] := rfl
@[simp] theorem respond_draws (r : Response) (s : State) : (respond r s).draws = s.draws := rfl

/-! `requeue` -/
@[simp] theorem requeue_params (r : Request) (s : State) : (requeue r s).params = s.params := rfl
@[simp] theorem requeue_v (r : Request) (s : State) : (requeue r s).v = s.v := rfl
@[simp] theorem requeue_len (r : Request) (s : State) : (requeue r s).len = s.len := rfl
@[simp] theorem requeue_buf (r : Request) (s : State) : (requeue r s).buf = s.buf := rfl
@[simp] theorem requeue_buflen (r : Request) (s : State) : (requeue r s).buflen = s.buflen := rfl
@[simp] theorem requeue_phase (r : Request) (s : State) : (requeue r s).phase = s.phase := rfl
@[simp] theorem requeue_errIll (r : Request) (s : State) : (requeue r s).errIll = s.errIll := rfl
@[simp] theorem requeue_errSeq (r : Request) (s : State) : (requeue r s).errSeq = s.errSeq := rfl
@[simp] theorem requeue_errLen (r : Request) (s : State) : (requeue r s).errLen = s.errLen := rfl
@[simp] theorem requeue_din (r : Request) (s : State) : (requeue r s).din = s.din := rfl
@[simp] theorem requeue_busy (r : Request) (s : State) : (requeue r s).busy = s.busy := rfl
@[simp] theorem requeue_regs (r : Request) (s : State) : (requeue r s).regs = s.regs := rfl
@[simp] theorem requeue_wq (r : Request) (s : State) : (requeue r s).wq = s.wq := rfl
@[simp] theorem requeue_j (r : Request) (s : State) : (requeue r s).j = s.j := rfl
@[simp] theorem requeue_blk (r : Request) (s : State) : (requeue r s).blk = s.blk := rfl
@[simp] theorem requeue_pend (r : Request) (s : State) : (requeue r s).pend = s.pend := rfl
@[simp] theorem requeue_faults (r : Request) (s : State) : (requeue r s).faults = s.faults := rfl
@[simp] theorem requeue_inputs (r : Request) (s : State) : (requeue r s).inputs = .host r :: s.inputs := rfl
@[simp] theorem requeue_responses (r : Request) (s : State) : (requeue r s).responses = s.responses := rfl
@[simp] theorem requeue_draws (r : Request) (s : State) : (requeue r s).draws = s.draws := rfl

/-! `raise` -/
@[simp] theorem raise_params (c : FaultRecord) (s : State) : (raise c s).params = s.params := by cases c <;> rfl
@[simp] theorem raise_v (c : FaultRecord) (s : State) : (raise c s).v = s.v := by cases c <;> rfl
@[simp] theorem raise_len (c : FaultRecord) (s : State) : (raise c s).len = s.len := by cases c <;> rfl
@[simp] theorem raise_buf (c : FaultRecord) (s : State) : (raise c s).buf = s.buf := by cases c <;> rfl
@[simp] theorem raise_buflen (c : FaultRecord) (s : State) : (raise c s).buflen = s.buflen := by cases c <;> rfl
@[simp] theorem raise_phase (c : FaultRecord) (s : State) : (raise c s).phase = s.phase := by cases c <;> rfl
@[simp] theorem raise_din (c : FaultRecord) (s : State) : (raise c s).din = s.din := by cases c <;> rfl
@[simp] theorem raise_busy (c : FaultRecord) (s : State) : (raise c s).busy = s.busy := by cases c <;> rfl
@[simp] theorem raise_regs (c : FaultRecord) (s : State) : (raise c s).regs = s.regs := by cases c <;> rfl
@[simp] theorem raise_wq (c : FaultRecord) (s : State) : (raise c s).wq = s.wq := by cases c <;> rfl
@[simp] theorem raise_j (c : FaultRecord) (s : State) : (raise c s).j = s.j := by cases c <;> rfl
@[simp] theorem raise_blk (c : FaultRecord) (s : State) : (raise c s).blk = s.blk := by cases c <;> rfl
@[simp] theorem raise_pend (c : FaultRecord) (s : State) : (raise c s).pend = s.pend := by cases c <;> rfl
@[simp] theorem raise_faults (c : FaultRecord) (s : State) : (raise c s).faults = s.faults ++ [c] := by cases c <;> rfl
@[simp] theorem raise_inputs (c : FaultRecord) (s : State) : (raise c s).inputs = s.inputs := by cases c <;> rfl
@[simp] theorem raise_responses (c : FaultRecord) (s : State) : (raise c s).responses = s.responses := by cases c <;> rfl
@[simp] theorem raise_draws (c : FaultRecord) (s : State) : (raise c s).draws = s.draws := by cases c <;> rfl

/-! `clearErrors` -/
@[simp] theorem clearErrors_params (s : State) : (clearErrors s).params = s.params := rfl
@[simp] theorem clearErrors_v (s : State) : (clearErrors s).v = s.v := rfl
@[simp] theorem clearErrors_len (s : State) : (clearErrors s).len = s.len := rfl
@[simp] theorem clearErrors_buf (s : State) : (clearErrors s).buf = s.buf := rfl
@[simp] theorem clearErrors_buflen (s : State) : (clearErrors s).buflen = s.buflen := rfl
@[simp] theorem clearErrors_phase (s : State) : (clearErrors s).phase = s.phase := rfl
@[simp] theorem clearErrors_errIll (s : State) : (clearErrors s).errIll = false := rfl
@[simp] theorem clearErrors_errSeq (s : State) : (clearErrors s).errSeq = false := rfl
@[simp] theorem clearErrors_errLen (s : State) : (clearErrors s).errLen = false := rfl
@[simp] theorem clearErrors_din (s : State) : (clearErrors s).din = s.din := rfl
@[simp] theorem clearErrors_busy (s : State) : (clearErrors s).busy = s.busy := rfl
@[simp] theorem clearErrors_regs (s : State) : (clearErrors s).regs = s.regs := rfl
@[simp] theorem clearErrors_wq (s : State) : (clearErrors s).wq = s.wq := rfl
@[simp] theorem clearErrors_j (s : State) : (clearErrors s).j = s.j := rfl
@[simp] theorem clearErrors_blk (s : State) : (clearErrors s).blk = s.blk := rfl
@[simp] theorem clearErrors_pend (s : State) : (clearErrors s).pend = s.pend := rfl
@[simp] theorem clearErrors_faults (s : State) : (clearErrors s).faults = s.faults := rfl
@[simp] theorem clearErrors_inputs (s : State) : (clearErrors s).inputs = s.inputs := rfl
@[simp] theorem clearErrors_responses (s : State) : (clearErrors s).responses = s.responses := rfl
@[simp] theorem clearErrors_draws (s : State) : (clearErrors s).draws = s.draws := rfl

/-! `resetMachine` -/
@[simp] theorem resetMachine_params (s : State) : (resetMachine s).params = s.params := rfl
@[simp] theorem resetMachine_v (s : State) : (resetMachine s).v = iv := rfl
@[simp] theorem resetMachine_len (s : State) : (resetMachine s).len = 0 := rfl
@[simp] theorem resetMachine_buflen (s : State) : (resetMachine s).buflen = 0 := rfl
@[simp] theorem resetMachine_phase (s : State) : (resetMachine s).phase = .active := rfl
@[simp] theorem resetMachine_errIll (s : State) : (resetMachine s).errIll = false := rfl
@[simp] theorem resetMachine_errSeq (s : State) : (resetMachine s).errSeq = false := rfl
@[simp] theorem resetMachine_errLen (s : State) : (resetMachine s).errLen = false := rfl
@[simp] theorem resetMachine_din (s : State) : (resetMachine s).din = 0 := rfl
@[simp] theorem resetMachine_busy (s : State) : (resetMachine s).busy = false := rfl
@[simp] theorem resetMachine_pend (s : State) : (resetMachine s).pend = false := rfl
@[simp] theorem resetMachine_faults (s : State) : (resetMachine s).faults = s.faults := rfl
@[simp] theorem resetMachine_inputs (s : State) : (resetMachine s).inputs = s.inputs := rfl
@[simp] theorem resetMachine_responses (s : State) : (resetMachine s).responses = s.responses := rfl
@[simp] theorem resetMachine_draws (s : State) : (resetMachine s).draws = s.draws := rfl

/-! `startCompression` -/
@[simp] theorem startCompression_params (s : State) (b : Block) : (startCompression s b).params = s.params := rfl
@[simp] theorem startCompression_v (s : State) (b : Block) : (startCompression s b).v = s.v := rfl
@[simp] theorem startCompression_len (s : State) (b : Block) : (startCompression s b).len = s.len := rfl
@[simp] theorem startCompression_buf (s : State) (b : Block) : (startCompression s b).buf = s.buf := rfl
@[simp] theorem startCompression_buflen (s : State) (b : Block) : (startCompression s b).buflen = s.buflen := rfl
@[simp] theorem startCompression_phase (s : State) (b : Block) : (startCompression s b).phase = s.phase := rfl
@[simp] theorem startCompression_errIll (s : State) (b : Block) : (startCompression s b).errIll = s.errIll := rfl
@[simp] theorem startCompression_errSeq (s : State) (b : Block) : (startCompression s b).errSeq = s.errSeq := rfl
@[simp] theorem startCompression_errLen (s : State) (b : Block) : (startCompression s b).errLen = s.errLen := rfl
@[simp] theorem startCompression_din (s : State) (b : Block) : (startCompression s b).din = s.din := rfl
@[simp] theorem startCompression_busy (s : State) (b : Block) : (startCompression s b).busy = true := rfl
@[simp] theorem startCompression_regs (s : State) (b : Block) : (startCompression s b).regs = loadRegs s.v := rfl
@[simp] theorem startCompression_wq (s : State) (b : Block) : (startCompression s b).wq = words b := rfl
@[simp] theorem startCompression_j (s : State) (b : Block) : (startCompression s b).j = 0 := rfl
@[simp] theorem startCompression_blk (s : State) (b : Block) : (startCompression s b).blk = b := rfl
@[simp] theorem startCompression_pend (s : State) (b : Block) : (startCompression s b).pend = s.pend := rfl
@[simp] theorem startCompression_faults (s : State) (b : Block) : (startCompression s b).faults = s.faults := rfl
@[simp] theorem startCompression_inputs (s : State) (b : Block) : (startCompression s b).inputs = s.inputs := rfl
@[simp] theorem startCompression_responses (s : State) (b : Block) : (startCompression s b).responses = s.responses := rfl
@[simp] theorem startCompression_draws (s : State) (b : Block) : (startCompression s b).draws = s.draws := rfl

/-! `acceptInit` -/
@[simp] theorem acceptInit_params (s : State) : (acceptInit s).params = s.params := rfl
@[simp] theorem acceptInit_v (s : State) : (acceptInit s).v = iv := rfl
@[simp] theorem acceptInit_len (s : State) : (acceptInit s).len = 0 := rfl
@[simp] theorem acceptInit_buf (s : State) : (acceptInit s).buf = s.buf := rfl
@[simp] theorem acceptInit_buflen (s : State) : (acceptInit s).buflen = 0 := rfl
@[simp] theorem acceptInit_phase (s : State) : (acceptInit s).phase = .active := rfl
@[simp] theorem acceptInit_errIll (s : State) : (acceptInit s).errIll = false := rfl
@[simp] theorem acceptInit_errSeq (s : State) : (acceptInit s).errSeq = false := rfl
@[simp] theorem acceptInit_errLen (s : State) : (acceptInit s).errLen = false := rfl
@[simp] theorem acceptInit_din (s : State) : (acceptInit s).din = s.din := rfl
@[simp] theorem acceptInit_busy (s : State) : (acceptInit s).busy = s.busy := rfl
@[simp] theorem acceptInit_regs (s : State) : (acceptInit s).regs = s.regs := rfl
@[simp] theorem acceptInit_wq (s : State) : (acceptInit s).wq = s.wq := rfl
@[simp] theorem acceptInit_j (s : State) : (acceptInit s).j = s.j := rfl
@[simp] theorem acceptInit_blk (s : State) : (acceptInit s).blk = s.blk := rfl
@[simp] theorem acceptInit_pend (s : State) : (acceptInit s).pend = false := rfl
@[simp] theorem acceptInit_faults (s : State) : (acceptInit s).faults = s.faults := rfl
@[simp] theorem acceptInit_inputs (s : State) : (acceptInit s).inputs = s.inputs := rfl
@[simp] theorem acceptInit_responses (s : State) : (acceptInit s).responses = s.responses := rfl
@[simp] theorem acceptInit_draws (s : State) : (acceptInit s).draws = s.draws := rfl

/-! `roundOnce` -/
@[simp] theorem roundOnce_params (s : State) : (roundOnce s).params = s.params := by unfold roundOnce; split <;> rfl
@[simp] theorem roundOnce_v (s : State) : (roundOnce s).v = s.v := by unfold roundOnce; split <;> rfl
@[simp] theorem roundOnce_len (s : State) : (roundOnce s).len = s.len := by unfold roundOnce; split <;> rfl
@[simp] theorem roundOnce_buf (s : State) : (roundOnce s).buf = s.buf := by unfold roundOnce; split <;> rfl
@[simp] theorem roundOnce_buflen (s : State) : (roundOnce s).buflen = s.buflen := by unfold roundOnce; split <;> rfl
@[simp] theorem roundOnce_phase (s : State) : (roundOnce s).phase = s.phase := by unfold roundOnce; split <;> rfl
@[simp] theorem roundOnce_errIll (s : State) : (roundOnce s).errIll = s.errIll := by unfold roundOnce; split <;> rfl
@[simp] theorem roundOnce_errSeq (s : State) : (roundOnce s).errSeq = s.errSeq := by unfold roundOnce; split <;> rfl
@[simp] theorem roundOnce_errLen (s : State) : (roundOnce s).errLen = s.errLen := by unfold roundOnce; split <;> rfl
@[simp] theorem roundOnce_din (s : State) : (roundOnce s).din = s.din := by unfold roundOnce; split <;> rfl
@[simp] theorem roundOnce_busy (s : State) : (roundOnce s).busy = s.busy := by unfold roundOnce; split <;> rfl
@[simp] theorem roundOnce_blk (s : State) : (roundOnce s).blk = s.blk := by unfold roundOnce; split <;> rfl
@[simp] theorem roundOnce_pend (s : State) : (roundOnce s).pend = s.pend := by unfold roundOnce; split <;> rfl
@[simp] theorem roundOnce_faults (s : State) : (roundOnce s).faults = s.faults := by unfold roundOnce; split <;> rfl
@[simp] theorem roundOnce_inputs (s : State) : (roundOnce s).inputs = s.inputs := by unfold roundOnce; split <;> rfl
@[simp] theorem roundOnce_responses (s : State) : (roundOnce s).responses = s.responses := by unfold roundOnce; split <;> rfl
@[simp] theorem roundOnce_draws (s : State) : (roundOnce s).draws = s.draws := by unfold roundOnce; split <;> rfl

/-- The sticky bits after `raise`: the cause's own bit is set (R181, R182, R183), a bus error sets none (R184). -/
theorem raise_bits (c : FaultRecord) (s : State) :
    ((raise c s).errIll, (raise c s).errSeq, (raise c s).errLen) =
      match c with
      | .illegalCommand _ => (true, s.errSeq, s.errLen)
      | .sequence _ => (s.errIll, true, s.errLen)
      | .lengthOverflow _ _ => (s.errIll, s.errSeq, true)
      | .busError _ _ _ => (s.errIll, s.errSeq, s.errLen) := by
  cases c <;> rfl

end Sys2Proof.Machine
end

