-- ==== Sys2Proof/Laws/Engine.lean ====
section
/-! SUPPORT. What the engine's steps can do (42_round_engine.md): one round, a run of rounds, and the fields no engine step touches. -/

namespace Sys2Proof.Machine

/-- What one application of `f` keeps, any number of them keeps. -/
theorem iterate_keeps {α β : Type} {f : α → α} {g : α → β} (h : ∀ x, g (f x) = g x) (n : Nat) (x : α) :
    g (f^[n] x) = g x := by
  induction n generalizing x with
  | zero => rfl
  | succ n ih => rw [Function.iterate_succ_apply, ih, h]

/-- One round below 64 (R122). -/
theorem roundOnce_of_lt {s : State} (h : s.j.val < 64) :
    (roundOnce s).regs = compressRound s.j.val s.regs s.wq[0] (s.wq[0] ^^^ s.wq[4]) ∧
    (roundOnce s).wq = windowStep s.wq ∧ (roundOnce s).j.val = s.j.val + 1 := by
  unfold roundOnce
  rw [dif_pos h]
  exact ⟨rfl, rfl, rfl⟩

/-- After round 64 there is no round left (R31). -/
theorem roundOnce_of_ge {s : State} (h : ¬ s.j.val < 64) : roundOnce s = s := by
  unfold roundOnce
  rw [dif_neg h]

/-- n rounds that do not pass 64 advance J by n (R122). -/
theorem roundOnce_iterate_j (n : Nat) (s : State) (h : s.j.val + n ≤ 64) : (roundOnce^[n] s).j.val = s.j.val + n := by
  induction n generalizing s with
  | zero => rfl
  | succ n ih =>
    have hj := (roundOnce_of_lt (s := s) (by omega)).2.2
    rw [Function.iterate_succ_apply, ih (roundOnce s) (by omega), hj]
    omega

@[simp] theorem engineRound_v (s : State) : (engineRound s).v = s.v := iterate_keeps (g := State.v) roundOnce_v _ s
@[simp] theorem engineRound_busy (s : State) : (engineRound s).busy = s.busy := iterate_keeps (g := State.busy) roundOnce_busy _ s
@[simp] theorem engineRound_blk (s : State) : (engineRound s).blk = s.blk := iterate_keeps (g := State.blk) roundOnce_blk _ s
@[simp] theorem engineRound_pend (s : State) : (engineRound s).pend = s.pend := iterate_keeps (g := State.pend) roundOnce_pend _ s
@[simp] theorem engineRound_params (s : State) : (engineRound s).params = s.params := iterate_keeps (g := State.params) roundOnce_params _ s
@[simp] theorem engineRound_len (s : State) : (engineRound s).len = s.len := iterate_keeps (g := State.len) roundOnce_len _ s
@[simp] theorem engineRound_buf (s : State) : (engineRound s).buf = s.buf := iterate_keeps (g := State.buf) roundOnce_buf _ s
@[simp] theorem engineRound_buflen (s : State) : (engineRound s).buflen = s.buflen := iterate_keeps (g := State.buflen) roundOnce_buflen _ s
@[simp] theorem engineRound_phase (s : State) : (engineRound s).phase = s.phase := iterate_keeps (g := State.phase) roundOnce_phase _ s
@[simp] theorem engineRound_errIll (s : State) : (engineRound s).errIll = s.errIll := iterate_keeps (g := State.errIll) roundOnce_errIll _ s
@[simp] theorem engineRound_errSeq (s : State) : (engineRound s).errSeq = s.errSeq := iterate_keeps (g := State.errSeq) roundOnce_errSeq _ s
@[simp] theorem engineRound_errLen (s : State) : (engineRound s).errLen = s.errLen := iterate_keeps (g := State.errLen) roundOnce_errLen _ s
@[simp] theorem engineRound_din (s : State) : (engineRound s).din = s.din := iterate_keeps (g := State.din) roundOnce_din _ s
@[simp] theorem engineRound_faults (s : State) : (engineRound s).faults = s.faults := iterate_keeps (g := State.faults) roundOnce_faults _ s
@[simp] theorem engineRound_inputs (s : State) : (engineRound s).inputs = s.inputs := iterate_keeps (g := State.inputs) roundOnce_inputs _ s
@[simp] theorem engineRound_responses (s : State) : (engineRound s).responses = s.responses := iterate_keeps (g := State.responses) roundOnce_responses _ s
@[simp] theorem engineRound_draws (s : State) : (engineRound s).draws = s.draws := iterate_keeps (g := State.draws) roundOnce_draws _ s

@[simp] theorem engineFinish_params (s : State) : (engineFinish s).params = s.params := by unfold engineFinish; split <;> rfl
@[simp] theorem engineFinish_len (s : State) : (engineFinish s).len = s.len := by unfold engineFinish; split <;> rfl
@[simp] theorem engineFinish_buf (s : State) : (engineFinish s).buf = s.buf := by unfold engineFinish; split <;> rfl
@[simp] theorem engineFinish_buflen (s : State) : (engineFinish s).buflen = s.buflen := by unfold engineFinish; split <;> rfl
@[simp] theorem engineFinish_phase (s : State) : (engineFinish s).phase = s.phase := by unfold engineFinish; split <;> rfl
@[simp] theorem engineFinish_errIll (s : State) : (engineFinish s).errIll = s.errIll := by unfold engineFinish; split <;> rfl
@[simp] theorem engineFinish_errSeq (s : State) : (engineFinish s).errSeq = s.errSeq := by unfold engineFinish; split <;> rfl
@[simp] theorem engineFinish_errLen (s : State) : (engineFinish s).errLen = s.errLen := by unfold engineFinish; split <;> rfl
@[simp] theorem engineFinish_din (s : State) : (engineFinish s).din = s.din := by unfold engineFinish; split <;> rfl
@[simp] theorem engineFinish_faults (s : State) : (engineFinish s).faults = s.faults := by unfold engineFinish; split <;> rfl
@[simp] theorem engineFinish_inputs (s : State) : (engineFinish s).inputs = s.inputs := by unfold engineFinish; split <;> rfl
@[simp] theorem engineFinish_responses (s : State) : (engineFinish s).responses = s.responses := by unfold engineFinish; split <;> rfl
@[simp] theorem engineFinish_draws (s : State) : (engineFinish s).draws = s.draws := by unfold engineFinish; split <;> rfl

@[simp] theorem engineStep_params (s : State) : (engineStep s).params = s.params := by unfold engineStep; split <;> (try split) <;> simp
@[simp] theorem engineStep_len (s : State) : (engineStep s).len = s.len := by unfold engineStep; split <;> (try split) <;> simp
@[simp] theorem engineStep_buf (s : State) : (engineStep s).buf = s.buf := by unfold engineStep; split <;> (try split) <;> simp
@[simp] theorem engineStep_buflen (s : State) : (engineStep s).buflen = s.buflen := by unfold engineStep; split <;> (try split) <;> simp
@[simp] theorem engineStep_phase (s : State) : (engineStep s).phase = s.phase := by unfold engineStep; split <;> (try split) <;> simp
@[simp] theorem engineStep_errIll (s : State) : (engineStep s).errIll = s.errIll := by unfold engineStep; split <;> (try split) <;> simp
@[simp] theorem engineStep_errSeq (s : State) : (engineStep s).errSeq = s.errSeq := by unfold engineStep; split <;> (try split) <;> simp
@[simp] theorem engineStep_errLen (s : State) : (engineStep s).errLen = s.errLen := by unfold engineStep; split <;> (try split) <;> simp
@[simp] theorem engineStep_din (s : State) : (engineStep s).din = s.din := by unfold engineStep; split <;> (try split) <;> simp
@[simp] theorem engineStep_faults (s : State) : (engineStep s).faults = s.faults := by unfold engineStep; split <;> (try split) <;> simp
@[simp] theorem engineStep_inputs (s : State) : (engineStep s).inputs = s.inputs := by unfold engineStep; split <;> (try split) <;> simp
@[simp] theorem engineStep_responses (s : State) : (engineStep s).responses = s.responses := by unfold engineStep; split <;> (try split) <;> simp
@[simp] theorem engineStep_draws (s : State) : (engineStep s).draws = s.draws := by unfold engineStep; split <;> (try split) <;> simp

/-- An idle engine does not move (R121). -/
theorem engineStep_idle {s : State} (h : s.busy = false) : engineStep s = s := by
  simp [engineStep, h]

/-- A busy engine below 64 performs K rounds (R121, R122). -/
theorem engineStep_round {s : State} (h : s.busy = true) (hj : s.j.val < 64) : engineStep s = engineRound s := by
  simp [engineStep, h, hj]

/-- A busy engine at 64 finishes (R121, R124). -/
theorem engineStep_finish {s : State} (h : s.busy = true) (hj : s.j.val = 64) : engineStep s = engineFinish s := by
  simp [engineStep, h, hj]

/-- K divides 64 (R8). -/
theorem roundsPerStep_dvd (k : RoundsPerStep) : k.toNat ∣ 64 := by
  cases k <;> decide

/-- K is positive (R8). -/
theorem roundsPerStep_pos (k : RoundsPerStep) : 0 < k.toNat := by
  cases k <;> decide

end Sys2Proof.Machine
end

