-- ==== Sys2Proof/Laws/Ops.lean ====
section
/-! SUPPORT. What the shared operations and the step can do, each said once: the window's addresses, offering a command, running an
instruction, a request, a step. -/

namespace Sys2Proof.Machine

/-- A physical address of the window selects its offset (R50). -/
@[simp] theorem windowOffset_base_add (base : Nat) (off : BitVec 6) : windowOffset base (base + off.toNat) = some off := by
  have h : off.toNat < 64 := off.isLt
  simp [windowOffset, h]

/-- An address outside the window selects nothing (R50). -/
theorem windowOffset_outside {base addr : Nat} (h : addr < base ∨ base + 64 ≤ addr) : windowOffset base addr = none := by
  rw [windowOffset, if_neg (by omega)]

/-- A request made from an operation presents that operation. -/
@[simp] theorem presentedOp_requestOf (p : Params) (op : HostOp) : presentedOp p (requestOf p op) = some op := by
  cases op <;> simp [presentedOp, requestOf]

/-- DVALID, read as its two conditions (R40). -/
theorem dvalid_iff {s : State} : dvalid s = true ↔ s.phase = .final ∧ s.busy = false := by
  simp [dvalid, finalBit]

/-- LenOK, read as its bound (R144). -/
theorem lenOK_iff {s : State} {n : Nat} : lenOK s n = true ↔ s.len.toNat + 8 * n ≤ 2 ^ 64 - 1 := by
  simp [lenOK]

/-- R201: an idle block accepts a CMD write. -/
theorem offerCommand_idle {s : State} (h : s.busy = false) (r : Request) (f : State → State) :
    offerCommand r f s = respond .written (f s) := by
  simp [offerCommand, h]

/-- R201: a busy block holds a CMD write. -/
theorem offerCommand_busy {s : State} (h : s.busy = true) (r : Request) (f : State → State) :
    offerCommand r f s = engineStep (requeue r s) := by
  simp [offerCommand, h]

/-- The effect a CMD write has when it is accepted; none for the other instructions. -/
def cmdEffect : Instr → Option (State → State)
  | .nop => some acceptNop
  | .init => some acceptInit
  | .push0 => some (acceptPush 0)
  | .push1 => some (acceptPush 1)
  | .push2 => some (acceptPush 2)
  | .push3 => some (acceptPush 3)
  | .push4 => some (acceptPush 4)
  | .finalize => some acceptFinalize
  | .wrCmd w => some (performWord w)
  | .wrDin _ | .rdDin | .rdStatus | .rdLenHi | .rdLenLo | .rdDigest _ => none

/-- A CMD write is offered with its effect. -/
theorem exec_cmd {i : Instr} {f : State → State} (h : cmdEffect i = some f) (s : State) :
    exec i s = .next (offerCommand (requestOf s.params (encode i)) f s) := by
  cases i <;> cases h <;> rfl

/-- What an instruction can do: be held, be accepted as a command, write DIN, or return a value (drawing a free one at most). -/
theorem exec_cases {i : Instr} {s t : State} (h : exec i s = .next t) :
    (∃ f, cmdEffect i = some f ∧ s.busy = true ∧ t = engineStep (requeue (requestOf s.params (encode i)) s)) ∨
    (∃ f, cmdEffect i = some f ∧ s.busy = false ∧ t = respond .written (f s)) ∨
    (∃ v, i = .wrDin v ∧ t = respond .written { s with din := v }) ∨
    (∃ x d, cmdEffect i = none ∧ (∀ v, i ≠ .wrDin v) ∧ t = respond (.value x) { s with draws := d }) := by
  cases hf : cmdEffect i with
  | some f =>
    rw [exec_cmd hf] at h
    cases h
    cases hb : s.busy with
    | true => exact .inl ⟨f, rfl, rfl, offerCommand_busy hb _ _⟩
    | false => exact .inr (.inl ⟨f, rfl, rfl, offerCommand_idle hb _ _⟩)
  | none =>
    cases i with
    | wrDin v => cases h; exact .inr (.inr (.inl ⟨v, rfl, rfl⟩))
    | rdDin => cases h; exact .inr (.inr (.inr ⟨s.din, s.draws, rfl, nofun, rfl⟩))
    | rdStatus => cases h; exact .inr (.inr (.inr ⟨statusWord s, s.draws, rfl, nofun, rfl⟩))
    | rdLenHi => cases h; exact .inr (.inr (.inr ⟨lenHi s, s.draws, rfl, nofun, rfl⟩))
    | rdLenLo => cases h; exact .inr (.inr (.inr ⟨lenLo s, s.draws, rfl, nofun, rfl⟩))
    | rdDigest k =>
      cases h
      refine .inr (.inr (.inr ?_))
      split
      · exact ⟨s.v[k], s.draws, rfl, nofun, rfl⟩
      · exact ⟨_, s.draws + 1, rfl, nofun, rfl⟩
    | _ => cases hf

/-- What a host access can do: miss the window, be rejected by the decoder, or run the decoded instruction. -/
theorem runRequest_cases {r : Request} {s t : State} (h : runRequest r s = .next t) :
    (presentedOp s.params r = none ∧ t = s) ∨
    (∃ op e, presentedOp s.params r = some op ∧ decode op = .error e ∧ t = rejectOp op s) ∨
    (∃ op i, presentedOp s.params r = some op ∧ decode op = .ok i ∧ exec i s = .next t) := by
  unfold runRequest at h
  split at h
  · cases h; exact .inl ⟨‹_›, rfl⟩
  · split at h
    · exact .inr (.inr ⟨_, _, ‹_›, ‹_›, h⟩)
    · cases h; exact .inr (.inl ⟨_, _, ‹_›, ‹_›, rfl⟩)

/-- What a step can do: run the engine (alone, or at its turn), reset, or take a host access. -/
theorem step_cases {s t : State} (h : step s = .next t) :
    (s.inputs = [] ∧ t = engineStep s) ∨
    (∃ rest, s.inputs = .engine :: rest ∧ t = engineStep { s with inputs := rest }) ∨
    (∃ rest, s.inputs = .reset :: rest ∧ t = resetMachine { s with inputs := rest }) ∨
    (∃ r rest, s.inputs = .host r :: rest ∧ runRequest r { s with inputs := rest } = .next t) := by
  unfold step at h
  split at h
  · cases h; exact .inl ⟨‹_›, rfl⟩
  · cases h; exact .inr (.inl ⟨_, ‹_›, rfl⟩)
  · cases h; exact .inr (.inr (.inl ⟨_, ‹_›, rfl⟩))
  · exact .inr (.inr (.inr ⟨_, _, ‹_›, h⟩))

end Sys2Proof.Machine
end

