-- ==== Sys2Proof/Laws/PerInstr.lean ====
section
/-! SUPPORT. The statements made instruction by instruction (LAWS.json). `EncodesWellFormed`: the encoding of every instruction is an
operation that the tables of R38 and R75 allow. -/

namespace Sys2Proof.Laws.EncodesWellFormed

/-- The encoding of `i` is well-formed. -/
def Statement (i : Instr) : Prop := (encode i).wellFormed = true

theorem nop : Statement .nop := by unfold Statement; decide
theorem init : Statement .init := by unfold Statement; decide
theorem push0 : Statement .push0 := by unfold Statement; decide
theorem push1 : Statement .push1 := by unfold Statement; decide
theorem push2 : Statement .push2 := by unfold Statement; decide
theorem push3 : Statement .push3 := by unfold Statement; decide
theorem push4 : Statement .push4 := by unfold Statement; decide
theorem finalize : Statement .finalize := by unfold Statement; decide
theorem wrCmd (w : Word) : Statement (.wrCmd w) := by unfold Statement; rfl
theorem wrDin (w : Word) : Statement (.wrDin w) := by unfold Statement; rfl
theorem rdDin : Statement .rdDin := by unfold Statement; decide
theorem rdStatus : Statement .rdStatus := by unfold Statement; decide
theorem rdLenHi : Statement .rdLenHi := by unfold Statement; decide
theorem rdLenLo : Statement .rdLenLo := by unfold Statement; decide
theorem rdDigest (n : Fin 8) : Statement (.rdDigest n) := by unfold Statement; revert n; decide

end Sys2Proof.Laws.EncodesWellFormed
end

