-- ==== Sys2Proof/Laws/Push.lean ====
section
/-! SUPPORT. What PUSH and FINALIZE can do (43_streaming_buffer.md R141, 44_finalizer.md R152), each said once. -/

namespace Sys2Proof.Machine

/-- What one step of a fold keeps, the fold keeps. -/
theorem foldl_keeps {α β γ : Type} {f : α → γ → α} {g : α → β} (h : ∀ x y, g (f x y) = g x) (l : List γ) (x : α) :
    g (l.foldl f x) = g x := by
  induction l generalizing x with
  | nil => rfl
  | cons y l ih => rw [List.foldl_cons, ih, h]

/-- One byte pushed: it goes to BUF[BUFLEN]; either BUFLEN advances, or the full block is latched (R141 step 4). -/
theorem pushByte_cases (s : State) (x : Byte) :
    (s.buflen.toNat < 63 ∧ pushByte s x = { s with buf := s.buf.set s.buflen.toNat x, buflen := s.buflen + 1 }) ∨
    (s.buflen.toNat = 63 ∧ pushByte s x =
      { startCompression { s with buf := s.buf.set s.buflen.toNat x } (s.buf.set s.buflen.toNat x) with buflen := 0 }) := by
  have hlt : s.buflen.toNat < 64 := s.buflen.isLt
  by_cases h : s.buflen.toNat + 1 = 64
  · exact .inr ⟨by omega, by simp [pushByte, h]⟩
  · exact .inl ⟨by omega, by simp [pushByte, h]⟩

@[simp] theorem pushByte_params (s : State) (x : Byte) : (pushByte s x).params = s.params := by unfold pushByte; simp only []; split <;> rfl
@[simp] theorem pushByte_v (s : State) (x : Byte) : (pushByte s x).v = s.v := by unfold pushByte; simp only []; split <;> rfl
@[simp] theorem pushByte_len (s : State) (x : Byte) : (pushByte s x).len = s.len := by unfold pushByte; simp only []; split <;> rfl
@[simp] theorem pushByte_phase (s : State) (x : Byte) : (pushByte s x).phase = s.phase := by unfold pushByte; simp only []; split <;> rfl
@[simp] theorem pushByte_errIll (s : State) (x : Byte) : (pushByte s x).errIll = s.errIll := by unfold pushByte; simp only []; split <;> rfl
@[simp] theorem pushByte_errSeq (s : State) (x : Byte) : (pushByte s x).errSeq = s.errSeq := by unfold pushByte; simp only []; split <;> rfl
@[simp] theorem pushByte_errLen (s : State) (x : Byte) : (pushByte s x).errLen = s.errLen := by unfold pushByte; simp only []; split <;> rfl
@[simp] theorem pushByte_din (s : State) (x : Byte) : (pushByte s x).din = s.din := by unfold pushByte; simp only []; split <;> rfl
@[simp] theorem pushByte_pend (s : State) (x : Byte) : (pushByte s x).pend = s.pend := by unfold pushByte; simp only []; split <;> rfl
@[simp] theorem pushByte_faults (s : State) (x : Byte) : (pushByte s x).faults = s.faults := by unfold pushByte; simp only []; split <;> rfl
@[simp] theorem pushByte_inputs (s : State) (x : Byte) : (pushByte s x).inputs = s.inputs := by unfold pushByte; simp only []; split <;> rfl
@[simp] theorem pushByte_responses (s : State) (x : Byte) : (pushByte s x).responses = s.responses := by unfold pushByte; simp only []; split <;> rfl
@[simp] theorem pushByte_draws (s : State) (x : Byte) : (pushByte s x).draws = s.draws := by unfold pushByte; simp only []; split <;> rfl

@[simp] theorem pushBytes_params (n : Nat) (s : State) : (pushBytes n s).params = s.params := foldl_keeps (g := State.params) pushByte_params _ _
@[simp] theorem pushBytes_v (n : Nat) (s : State) : (pushBytes n s).v = s.v := foldl_keeps (g := State.v) pushByte_v _ _
@[simp] theorem pushBytes_len (n : Nat) (s : State) : (pushBytes n s).len = s.len + BitVec.ofNat 64 (8 * n) := foldl_keeps (g := State.len) pushByte_len _ _
@[simp] theorem pushBytes_phase (n : Nat) (s : State) : (pushBytes n s).phase = s.phase := foldl_keeps (g := State.phase) pushByte_phase _ _
@[simp] theorem pushBytes_errIll (n : Nat) (s : State) : (pushBytes n s).errIll = s.errIll := foldl_keeps (g := State.errIll) pushByte_errIll _ _
@[simp] theorem pushBytes_errSeq (n : Nat) (s : State) : (pushBytes n s).errSeq = s.errSeq := foldl_keeps (g := State.errSeq) pushByte_errSeq _ _
@[simp] theorem pushBytes_errLen (n : Nat) (s : State) : (pushBytes n s).errLen = s.errLen := foldl_keeps (g := State.errLen) pushByte_errLen _ _
@[simp] theorem pushBytes_din (n : Nat) (s : State) : (pushBytes n s).din = s.din := foldl_keeps (g := State.din) pushByte_din _ _
@[simp] theorem pushBytes_pend (n : Nat) (s : State) : (pushBytes n s).pend = s.pend := foldl_keeps (g := State.pend) pushByte_pend _ _
@[simp] theorem pushBytes_faults (n : Nat) (s : State) : (pushBytes n s).faults = s.faults := foldl_keeps (g := State.faults) pushByte_faults _ _
@[simp] theorem pushBytes_inputs (n : Nat) (s : State) : (pushBytes n s).inputs = s.inputs := foldl_keeps (g := State.inputs) pushByte_inputs _ _
@[simp] theorem pushBytes_responses (n : Nat) (s : State) : (pushBytes n s).responses = s.responses := foldl_keeps (g := State.responses) pushByte_responses _ _
@[simp] theorem pushBytes_draws (n : Nat) (s : State) : (pushBytes n s).draws = s.draws := foldl_keeps (g := State.draws) pushByte_draws _ _

/-- An accepted PUSH (R141): SEQUENCE, LENGTH_OVERFLOW, or the bytes pushed. -/
theorem acceptPush_cases (n : Fin 5) (s : State) :
    (s.phase = .final ∧ acceptPush n s = raise (.sequence (Command.push n).word) s) ∨
    (s.phase = .active ∧ lenOK s n.val = false ∧ acceptPush n s = raise (.lengthOverflow (Command.push n).word s.len) s) ∨
    (s.phase = .active ∧ lenOK s n.val = true ∧ acceptPush n s = pushBytes n.val s) := by
  cases hp : s.phase with
  | final => exact .inl ⟨rfl, by simp [acceptPush, hp]⟩
  | active =>
    cases hl : lenOK s n.val with
    | false => exact .inr (.inl ⟨rfl, rfl, by simp [acceptPush, hp, hl]⟩)
    | true => exact .inr (.inr ⟨rfl, rfl, by simp [acceptPush, hp, hl]⟩)

/-- The block an accepted FINALIZE starts with, and PEND (R151, R152). -/
theorem startFinal_cases (s : State) :
    (56 ≤ s.buflen.toNat ∧ startFinal s = startCompression { s with pend := true } (padBlock s)) ∨
    (s.buflen.toNat ≤ 55 ∧ startFinal s = startCompression s (withLength (padBlock s) s.len)) := by
  by_cases h : s.buflen.toNat + 1 + 8 > 64
  · exact .inl ⟨by omega, by rw [startFinal, if_pos h]⟩
  · exact .inr ⟨by omega, by rw [startFinal, if_neg h]⟩

/-- An accepted FINALIZE (R152): SEQUENCE, or the final compressions start. -/
theorem acceptFinalize_cases (s : State) :
    (s.phase = .final ∧ acceptFinalize s = raise (.sequence Command.finalize.word) s) ∨
    (s.phase = .active ∧ acceptFinalize s = { startFinal s with buflen := 0, phase := .final }) := by
  cases hp : s.phase with
  | final => exact .inl ⟨rfl, by simp [acceptFinalize, hp]⟩
  | active => exact .inr ⟨rfl, by simp [acceptFinalize, hp]⟩

end Sys2Proof.Machine
end

