-- ==== Sys2Proof/Laws/Step.lean ====
section
/-! SUPPORT. What a step can do to the block, said once for every proof about all steps: `StepEffect` names the cases and
`stepEffect_of_step` says there are no others; and the step itself when the next event is a reset, an accepted command or a held
CMD write. -/

namespace Sys2Proof.Machine

/-- A word that decodes to a command is that command's word (R75, R77). -/
theorem decodeCmd_eq_word {w : Word} {c : Command} (h : decodeCmd w = some c) : w = c.word := by
  have hr : cmdRsv w = 0 := by
    by_contra hn
    rw [decodeCmd, if_pos hn] at h
    cases h
  have hlt : w.toNat < 128 := by
    have h0 : (cmdRsv w).toNat = 0 := by rw [hr]; rfl
    simp only [cmdRsv, BitVec.extractLsb'_toNat, Nat.shiftRight_eq_div_pow] at h0
    have := w.isLt
    omega
  have hw : w = BitVec.ofNat 32 w.toNat := by simp
  have all : ∀ n : Fin 128, (decodeCmd (BitVec.ofNat 32 n.val)).all fun c => decide (BitVec.ofNat 32 n.val = c.word) := by
    decide +kernel
  have := all ⟨w.toNat, hlt⟩
  rw [← hw, h] at this
  simpa using this

/-- The cases of a step, seen from the block: what it did, with the events left over. -/
inductive StepEffect (s : State) : State → Prop where
  /-- The engine moved; BUSY holds a command or nothing else was due (R121, R201). -/
  | engine (l : List Event) : StepEffect s (engineStep { s with inputs := l })
  /-- Reset (R202). -/
  | reset (l : List Event) (h : ResetNext s) : StepEffect s (resetMachine { s with inputs := l })
  /-- An access outside the window (R50). -/
  | elsewhere (l : List Event) : StepEffect s { s with inputs := l }
  /-- A bus error (R184). -/
  | busError (l : List Event) (a : BusAccess) : StepEffect s (busErrorAccess a { s with inputs := l })
  /-- A write of DIN (R167). -/
  | din (l : List Event) (v : Word) (h : nextInstr s = some (.wrDin v)) :
    StepEffect s (respond .written { s with inputs := l, din := v })
  /-- A read (R164 to R168). -/
  | read (l : List Event) (x : Word) (d : Nat) (h : ∀ c, ¬ AcceptsNext s c) :
    StepEffect s (respond (.value x) { s with inputs := l, draws := d })
  /-- An illegal command word was accepted (R181). -/
  | illegal (l : List Event) (w : Word) (hb : s.busy = false) (h : ∀ c, ¬ AcceptsNext s c) :
    StepEffect s (respond .written (raise (.illegalCommand w) { s with inputs := l }))
  /-- A command was accepted (R169). -/
  | command (l : List Event) (c : Command) (h : AcceptsNext s c) :
    StepEffect s (respond .written (performCommand c { s with inputs := l }))

/-- The command an instruction gives on its own row or as a CMD write. -/
theorem cmdEffect_cases {i : Instr} {f : State → State} (h : cmdEffect i = some f) :
    (∃ c, (i = c.toInstr ∨ i = .wrCmd c.word) ∧ f = performCommand c) ∨
    (∃ w, i = .wrCmd w ∧ decodeCmd w = none ∧ f = acceptIllegal w) := by
  cases i with
  | nop => cases h; exact .inl ⟨.nop, .inl rfl, rfl⟩
  | init => cases h; exact .inl ⟨.init, .inl rfl, rfl⟩
  | push0 => cases h; exact .inl ⟨.push 0, .inl rfl, rfl⟩
  | push1 => cases h; exact .inl ⟨.push 1, .inl rfl, rfl⟩
  | push2 => cases h; exact .inl ⟨.push 2, .inl rfl, rfl⟩
  | push3 => cases h; exact .inl ⟨.push 3, .inl rfl, rfl⟩
  | push4 => cases h; exact .inl ⟨.push 4, .inl rfl, rfl⟩
  | finalize => cases h; exact .inl ⟨.finalize, .inl rfl, rfl⟩
  | wrCmd w =>
    cases h
    cases hc : decodeCmd w with
    | none => exact .inr ⟨w, rfl, hc, by simp [performWord, hc]⟩
    | some c => exact .inl ⟨c, .inr (by rw [decodeCmd_eq_word hc]), by simp [performWord, hc]⟩
  | _ => cases h

/-- A CMD write of a command's word is not illegal. -/
theorem decodeCmd_word (c : Command) : decodeCmd c.word = some c := by
  cases c with
  | push n => revert n; decide
  | _ => decide

/-- A command's instruction encodes to its word (R75). -/
@[simp] theorem encode_toInstr (c : Command) : encode c.toInstr = .cmd c.word := by
  cases c with
  | push n => revert n; decide
  | _ => rfl

/-- A command's instruction, and a CMD write of its word, are offered with the command's effect (R79, R169). -/
theorem cmdEffect_of_command {i : Instr} {c : Command} (h : i = c.toInstr ∨ i = .wrCmd c.word) :
    cmdEffect i = some (performCommand c) := by
  rcases h with rfl | rfl
  · cases c with
    | push n => revert n; intro n; match n with | 0 | 1 | 2 | 3 | 4 => rfl
    | _ => rfl
  · simp [cmdEffect, performWord, decodeCmd_word]

/-- An instruction gives at most one command. -/
theorem command_of_instr_unique {i : Instr} {c d : Command} (hc : i = c.toInstr ∨ i = .wrCmd c.word)
    (hd : i = d.toInstr ∨ i = .wrCmd d.word) : c = d := by
  have key : c.word = d.word := by
    rcases hc with rfl | rfl <;> rcases hd with h | h
    · simpa using congrArg encode h
    · have := congrArg encode h; rw [encode_toInstr] at this; cases this
    · have := congrArg encode h; rw [encode_toInstr] at this; cases this
    · injection h
  have := congrArg decodeCmd key
  simpa [decodeCmd_word] using this

/-- Only one operation decodes to a CMD write of `w`: the 32-bit write of `w` at offset 0x00 (R53, R71). -/
theorem decode_eq_wrCmd {op : HostOp} {w : Word} (h : decode op = .ok (.wrCmd w)) :
    op = .bus { dir := .write, off := 0x00, width := 32, data := w } := by
  cases op with
  | cmd v =>
    rw [decode] at h
    split at h
    · rename_i c hc
      have h : c.toInstr = .wrCmd w := by injection h
      have := congrArg encode h
      rw [encode_toInstr] at this
      cases this
    · cases h
  | bus a =>
    rw [decode] at h
    split at h
    · cases h
    · rename_i hc
      have hw : a.width = 32 := by
        by_contra hn
        simp [busCheck, hn] at hc
      obtain ⟨dir, off, width, data⟩ := a
      obtain rfl : width = 32 := hw
      split at h
      · rename_i i hi
        have h : i = .wrCmd w := by injection h
        subst h
        unfold decodeBusCode at hi
        split at hi
        · rename_i hb
          obtain rfl : data = w := by simpa using hi
          have : ∀ (d : Dir) (o : BitVec 6), BusAccess.bop ⟨d, o, 32, data⟩ = 0x40#7 → d = .write ∧ o = 0x00 := by
            intro d o
            cases d <;> simp only [BusAccess.bop] <;> revert o <;> decide
          obtain ⟨rfl, rfl⟩ := this _ _ hb
          rfl
        · repeat' (split at hi)
          all_goals simp at hi
      · cases h

/-- Every step of the machine is one of the cases of `StepEffect`. -/
theorem stepEffect_of_step {s t : State} (h : step s = .next t) : StepEffect s t := by
  rcases step_cases h with ⟨hi, rfl⟩ | ⟨rest, _, rfl⟩ | ⟨rest, hi, rfl⟩ | ⟨r, rest, hi, hr⟩
  · exact .engine s.inputs
  · exact .engine rest
  · exact .reset rest (by simp [ResetNext, hi])
  · rcases runRequest_cases hr with ⟨_, rfl⟩ | ⟨op, e, hp, hd, rfl⟩ | ⟨op, i, hp, hd, hx⟩
    · exact .elsewhere rest
    · have hn : nextInstr s = none := by simp only [nextInstr, hi]; simp only at hp; simp [hp, hd]
      cases op with
      | bus a => exact .busError rest a
      | cmd w =>
        by_cases hb : s.busy = true
        · show StepEffect s (offerCommand _ _ { s with inputs := rest })
          rw [offerCommand_busy (s := { s with inputs := rest }) hb]
          exact .engine (.host (.command w) :: rest)
        · have hb : s.busy = false := by simpa using hb
          show StepEffect s (offerCommand _ _ { s with inputs := rest })
          rw [offerCommand_idle (s := { s with inputs := rest }) hb]
          exact .illegal rest w hb fun c hc => by rcases hc with ⟨_, h | h⟩ <;> simp [hn] at h
    · have hn : nextInstr s = some i := by simp only [nextInstr, hi]; simp only at hp; simp [hp, hd]
      rcases exec_cases hx with ⟨f, hf, hb, rfl⟩ | ⟨f, hf, hb, rfl⟩ | ⟨v, rfl, rfl⟩ | ⟨x, d, hc, _, rfl⟩
      · exact .engine (.host (requestOf s.params (encode i)) :: rest)
      · rcases cmdEffect_cases hf with ⟨c, hc, rfl⟩ | ⟨w, rfl, hd, rfl⟩
        · exact .command rest c ⟨hb, hc.imp (fun h => by rw [hn, h]) (fun h => by rw [hn, h])⟩
        · refine .illegal rest w hb fun c hc => ?_
          rcases hc with ⟨_, h | h⟩ <;> rw [hn] at h <;> injection h with h
          · cases c with
            | push n => revert n; intro n h; revert h; revert n; simp [Command.toInstr, Fin.forall_fin_succ, pushInstr]
            | _ => cases h
          · injection h with h
            rw [h, decodeCmd_word] at hd
            cases hd
      · exact .din rest v hn
      · refine .read rest x d fun c ha => ?_
        rcases ha with ⟨_, h | h⟩ <;> rw [hn] at h <;> injection h with h
        · simp [cmdEffect_of_command (.inl h)] at hc
        · simp [cmdEffect_of_command (.inr h)] at hc

/-- The next access accepts at most one command. -/
theorem acceptsNext_unique {s : State} {c d : Command} (hc : AcceptsNext s c) (hd : AcceptsNext s d) : c = d := by
  cases hn : nextInstr s with
  | none => rcases hc with ⟨-, h | h⟩ <;> simp [hn] at h
  | some i =>
    refine command_of_instr_unique (i := i) (hc.2.imp ?_ ?_) (hd.2.imp ?_ ?_) <;> intro h <;> simpa [hn] using h

/-- A state whose next access decodes to an instruction has that access at the head of its events. -/
theorem nextInstr_eq_some {s : State} {i : Instr} (h : nextInstr s = some i) :
    ∃ r rest op, s.inputs = .host r :: rest ∧ presentedOp s.params r = some op ∧ decode op = .ok i := by
  unfold nextInstr at h
  split at h
  · split at h
    · split at h
      · cases h
        exact ⟨_, _, _, ‹_›, ‹_›, ‹_›⟩
      · cases h
    · cases h
  · cases h

/-- A reset accepts no command. -/
theorem not_acceptsNext_of_resetNext {s : State} (h : ResetNext s) (c : Command) : ¬ AcceptsNext s c := by
  have hn : nextInstr s = none := by
    cases hi : nextInstr s with
    | none => rfl
    | some i =>
      obtain ⟨r, rest, op, hr, -⟩ := nextInstr_eq_some hi
      simp [ResetNext, hr] at h
  rintro ⟨-, ha | ha⟩ <;> simp [hn] at ha

/-- The step of a reset (R202). -/
theorem step_of_resetNext {s : State} (h : ResetNext s) :
    step s = .next (resetMachine { s with inputs := s.inputs.tail }) := by
  unfold ResetNext at h
  cases hi : s.inputs with
  | nil => simp [hi] at h
  | cons e rest =>
    obtain rfl : e = .reset := by simpa [hi] using h
    simp [step, hi]

/-- The step of a host access that presents a decoded operation. -/
theorem step_of_nextInstr {s : State} {i : Instr} (h : nextInstr s = some i) :
    step s = exec i { s with inputs := s.inputs.tail } := by
  obtain ⟨r, rest, op, hi, hp, hd⟩ := nextInstr_eq_some h
  simp [step, hi, runRequest, hp, hd]

/-- The step that accepts a command performs it, whichever format presents it (R79, R169). -/
theorem step_of_acceptsNext {s : State} {c : Command} (h : AcceptsNext s c) :
    step s = .next (respond .written (performCommand c { s with inputs := s.inputs.tail })) := by
  cases hn : nextInstr s with
  | none => rcases h with ⟨-, h | h⟩ <;> simp [hn] at h
  | some i =>
    have hi : i = c.toInstr ∨ i = .wrCmd c.word := h.2.imp (fun h => by simpa [hn] using h) (fun h => by simpa [hn] using h)
    rw [step_of_nextInstr hn, exec_cmd (cmdEffect_of_command hi), offerCommand_idle (s := { s with inputs := s.inputs.tail }) h.1]
/-- While BUSY holds the next event, the step is the engine's and leaves the events as they are (R201, log entry 5). -/
theorem step_of_heldNext {s : State} (h : HeldNext s) : step s = .next (engineStep s) := by
  obtain ⟨hb, ⟨w, hw⟩ | ⟨w, hw⟩⟩ := h
  · obtain ⟨rest, hi⟩ : ∃ rest, s.inputs = .host (.command w) :: rest := by
      cases hi : s.inputs with
      | nil => simp [hi] at hw
      | cons e rest => exact ⟨rest, by simpa [hi] using hw⟩
    have hs : requeue (.command w) { s with inputs := rest } = s := by simp [requeue, ← hi]
    cases hc : decodeCmd w with
    | none =>
      simp [step, hi, runRequest, presentedOp, decode, hc, rejectOp, offerCommand_busy (s := { s with inputs := rest }) hb, hs]
    | some c =>
      simp [step, hi, runRequest, presentedOp, decode, hc, exec_cmd (cmdEffect_of_command (.inl rfl)), requestOf,
        offerCommand_busy (s := { s with inputs := rest }) hb, decodeCmd_eq_word hc ▸ hs]
  · obtain ⟨r, rest, op, hi, hp, hd⟩ := nextInstr_eq_some hw
    obtain rfl := decode_eq_wrCmd hd
    have hr : r = .access s.params.base .write 32 w := by
      cases r with
      | command v => simp [presentedOp] at hp
      | access addr dir width data =>
        simp only [presentedOp, windowOffset, Option.map_eq_some_iff] at hp
        obtain ⟨off, ho, hop⟩ := hp
        split at ho
        · rename_i hrange
          injection hop with hop
          injection hop with h1 h2 h3 h4
          subst h1 h2 h3 h4
          have : addr = s.params.base := by
            have := congrArg BitVec.toNat (Option.some.inj ho)
            simp at this
            omega
          rw [this]
        · cases ho
    have hs : requeue (.access s.params.base .write 32 w) { s with inputs := rest } = s := by simp [requeue, ← hr, ← hi]
    rw [step_of_nextInstr hw, exec_cmd rfl, hi]
    simp only [List.tail_cons, encode, requestOf]
    rw [offerCommand_busy (s := { s with inputs := rest }) hb]
    exact congrArg _ (congrArg _ hs)

end Sys2Proof.Machine
end

