-- ==== Sys2Proof/Tests/Slice0.lean ====
section
/-! SUPPORT. Tests: decoding of words written out from the spec's encodings, the smoke test of the well-formedness checks, the spec's own
test vectors (95_test_vectors.md) one function or one step at a time, and for every statement with hypotheses a witness that meets
them. -/

namespace Sys2Proof.Tests

open Sys2Proof Sys2Proof.Machine

/-- A field of the next state, if there is one. -/
def after {α : Type} (o : Host.Outcome State Fault Refusal) (f : State → α) : Option α :=
  match o with
  | .next t => some (f t)
  | _ => none

/-! ## Decoding (30_encoding.md R71, R72, R75) -/

theorem test_decode_nop : decodeTableWord 32 0b00000000000000000000000000000000 = some .nop := by decide
theorem test_decode_init : decodeTableWord 32 0b00000000000000000000000000000001 = some .init := by decide
theorem test_decode_push0 : decodeTableWord 32 0b00000000000000000000000000000010 = some .push0 := by decide
theorem test_decode_push1 : decodeTableWord 32 0b00000000000000000000000000010010 = some .push1 := by decide
theorem test_decode_push2 : decodeTableWord 32 0b00000000000000000000000000100010 = some .push2 := by decide
theorem test_decode_push3 : decodeTableWord 32 0b00000000000000000000000000110010 = some .push3 := by decide
theorem test_decode_push4 : decodeTableWord 32 0b00000000000000000000000001000010 = some .push4 := by decide
theorem test_decode_finalize : decodeTableWord 32 0b00000000000000000000000000000011 = some .finalize := by decide
theorem test_decode_wrCmd : decodeTableWord 8 0b01000000 = some (.wrCmd 0) := by decide
theorem test_decode_wrDin : decodeTableWord 8 0b01000100 = some (.wrDin 0) := by decide
theorem test_decode_wrDin_data : decodeTableWord 40 0xDEADBEEF44 = some (.wrDin 0xDEADBEEF) := by decide
theorem test_decode_rdDin : decodeTableWord 8 0b00000100 = some .rdDin := by decide
theorem test_decode_rdStatus : decodeTableWord 8 0b00001000 = some .rdStatus := by decide
theorem test_decode_rdLenHi : decodeTableWord 8 0b00010000 = some .rdLenHi := by decide
theorem test_decode_rdLenLo : decodeTableWord 8 0b00010100 = some .rdLenLo := by decide
theorem test_decode_rdDigest0 : decodeTableWord 8 0b00100000 = some (.rdDigest 0) := by decide
theorem test_decode_rdDigest7 : decodeTableWord 8 0b00111100 = some (.rdDigest 7) := by decide

/-- The illegal words of the table in 95_test_vectors.md 2.8. -/
theorem test_decode_illegal :
    [0x52, 0x72, 0x13, 0x11, 0x04, 0x0F, 0x80, 0x80000003].map (decodeTableWord 32) = List.replicate 8 none := by decide

/-- The rejected bus codes: read CMD, write STATUS, reserved 0x0C, 0x18, 0x1C, misaligned 0x09, write DIGEST0, and a code of 8 bits. -/
theorem test_decode_bus_rejected :
    [0x00, 0x48, 0x0C, 0x18, 0x1C, 0x09, 0x60, 0x84].map (decodeTableWord 8) = List.replicate 8 none := by decide

/-! ## Well-formedness: an ill-formed term for each check -/

theorem smoke_width : HostOp.wellFormed (.bus { dir := .read, off := 0x08, width := 16, data := 0 }) = false := by decide
theorem smoke_misaligned : HostOp.wellFormed (.bus { dir := .read, off := 0x09, width := 32, data := 0 }) = false := by decide
theorem smoke_reserved : HostOp.wellFormed (.bus { dir := .read, off := 0x18, width := 32, data := 0 }) = false := by decide
theorem smoke_read_only : HostOp.wellFormed (.bus { dir := .write, off := 0x08, width := 32, data := 0 }) = false := by decide
theorem smoke_write_only : HostOp.wellFormed (.bus { dir := .read, off := 0x00, width := 32, data := 0 }) = false := by decide
theorem smoke_command_word : HostOp.wellFormed (.cmd 0x00000052) = false := by decide
theorem smoke_well_formed : HostOp.wellFormed (.bus { dir := .read, off := 0x3C, width := 32, data := 0 }) = true := by decide

/-! ## The functions (95_test_vectors.md 2.1 to 2.5, 40_compression.md R91, R97) -/

theorem test_rotl : [rotl 0x12345678 0, rotl 0x12345678 32, rotl 0x7380166F 12, rotl 0x163138AA 19]
    = [0x12345678, 0x12345678, 0x0166F738, 0xC550B189] := by decide
theorem test_p0 : [0x00000001, 0x80000000, 0x12345678, 0xC067DEBB].map p0 = [0x00020201, 0x80010100, 0xD6688234, 0xB2AD29F4] := by decide
theorem test_p1 : [0x00000001, 0x80000000, 0x12345678, 0x61626380].map p1 = [0x00808001, 0x80404000, 0x05014549, 0x9092E200] := by decide
theorem test_ff_gg :
    [ff 15 0xF0F0F0F0 0xCCCCCCCC 0xAAAAAAAA, ff 16 0xF0F0F0F0 0xCCCCCCCC 0xAAAAAAAA,
      gg 15 0xF0F0F0F0 0xCCCCCCCC 0xAAAAAAAA, gg 16 0xF0F0F0F0 0xCCCCCCCC 0xAAAAAAAA]
    = [0x96969696, 0xE8E8E8E8, 0x96969696, 0xCACACACA] := by decide

/-- The table of R91. -/
theorem test_round_constants : (List.range 64).map tRot =
    [0x79CC4519, 0xF3988A32, 0xE7311465, 0xCE6228CB, 0x9CC45197, 0x3988A32F, 0x7311465E, 0xE6228CBC]
    ++ [0xCC451979, 0x988A32F3, 0x311465E7, 0x6228CBCE, 0xC451979C, 0x88A32F39, 0x11465E73, 0x228CBCE6]
    ++ [0x9D8A7A87, 0x3B14F50F, 0x7629EA1E, 0xEC53D43C, 0xD8A7A879, 0xB14F50F3, 0x629EA1E7, 0xC53D43CE]
    ++ [0x8A7A879D, 0x14F50F3B, 0x29EA1E76, 0x53D43CEC, 0xA7A879D8, 0x4F50F3B1, 0x9EA1E762, 0x3D43CEC5]
    ++ [0x7A879D8A, 0xF50F3B14, 0xEA1E7629, 0xD43CEC53, 0xA879D8A7, 0x50F3B14F, 0xA1E7629E, 0x43CEC53D]
    ++ [0x879D8A7A, 0x0F3B14F5, 0x1E7629EA, 0x3CEC53D4, 0x79D8A7A8, 0xF3B14F50, 0xE7629EA1, 0xCEC53D43]
    ++ [0x9D8A7A87, 0x3B14F50F, 0x7629EA1E, 0xEC53D43C, 0xD8A7A879, 0xB14F50F3, 0x629EA1E7, 0xC53D43CE]
    ++ [0x8A7A879D, 0x14F50F3B, 0x29EA1E76, 0x53D43CEC, 0xA7A879D8, 0x4F50F3B1, 0x9EA1E762, 0x3D43CEC5] := by decide +kernel

/-- Round 0 of the block of "abc" (R97). -/
theorem test_round_0 : compressRound 0 (loadRegs iv) 0x61626380 0x61626380 =
    ⟨0xB9EDC12B, 0x7380166F, 0x29657292, 0x172442D7, 0xB2AD29F4, 0xA96F30BC, 0xC550B189, 0xE38DEE4D⟩ := by decide +kernel

/-- Round 16 of the block of "abc" (95_test_vectors.md 2.3, 2.5). -/
theorem test_round_16 : compressRound 16
      ⟨0x34D1691E, 0x7C529778, 0x92B57849, 0x979AB113, 0x61F99646, 0x3EE95933, 0x2AA0D251, 0xDB131B86⟩ 0x9092E200 0x9092E200 =
    ⟨0x796AFAB1, 0x34D1691E, 0xA52EF0F8, 0x92B57849, 0x067550F5, 0x61F99646, 0xC999F74A, 0x2AA0D251⟩ := by decide +kernel

/-- The padded block of "abc" (95_test_vectors.md 2.4). -/
def abcWords : Window := #v[0x61626380, 0, 0, 0, 0, 0, 0, 0, 0, 0, 0, 0, 0, 0, 0, 0x00000018]

/-- The expanded words of 95_test_vectors.md 2.4. -/
theorem test_expanded_words : expandedWords abcWords =
    [0x61626380, 0x00000000, 0x00000000, 0x00000000, 0x00000000, 0x00000000, 0x00000000, 0x00000000]
    ++ [0x00000000, 0x00000000, 0x00000000, 0x00000000, 0x00000000, 0x00000000, 0x00000000, 0x00000018]
    ++ [0x9092E200, 0x00000000, 0x000C0606, 0x719C70ED, 0x00000000, 0x8001801F, 0x939F7DA9, 0x00000000]
    ++ [0x2C6FA1F9, 0xADAAEF14, 0x00000000, 0x0001801E, 0x9A965F89, 0x49710048, 0x23CE86A1, 0xB2D12F1B]
    ++ [0xE1DAE338, 0xF8061807, 0x055D68BE, 0x86CFD481, 0x1F447D83, 0xD9023DBF, 0x185898E0, 0xE0061807]
    ++ [0x050DF55C, 0xCDE0104C, 0xA5B9C955, 0xA7DF0184, 0x6E46CD08, 0xE3BABDF8, 0x70CAA422, 0x0353AF50]
    ++ [0xA92DBCA1, 0x5F33CFD2, 0xE16F6E89, 0xF70FE941, 0xCA5462DC, 0x85A90152, 0x76AF6296, 0xC922BDB2]
    ++ [0x68378CF5, 0x97585344, 0x09008723, 0x86FAEE74, 0x2AB908B0, 0x4A64BC50, 0x864E6E08, 0xF07E6590]
    ++ [0x325C8F78, 0xACCB8011, 0xE11DB9DD, 0xB99C0545] := by decide +kernel

/-- The mixed words of 95_test_vectors.md 2.4. -/
theorem test_mixed_words : (List.range 64).map (mixedWord abcWords) =
    [0x61626380, 0x00000000, 0x00000000, 0x00000000, 0x00000000, 0x00000000, 0x00000000, 0x00000000]
    ++ [0x00000000, 0x00000000, 0x00000000, 0x00000018, 0x9092E200, 0x00000000, 0x000C0606, 0x719C70F5]
    ++ [0x9092E200, 0x8001801F, 0x93937BAF, 0x719C70ED, 0x2C6FA1F9, 0x2DAB6F0B, 0x939F7DA9, 0x0001801E]
    ++ [0xB6F9FE70, 0xE4DBEF5C, 0x23CE86A1, 0xB2D0AF05, 0x7B4CBCB1, 0xB177184F, 0x2693EE1F, 0x341EFB9A]
    ++ [0xFE9E9EBB, 0x210425B8, 0x1D05F05E, 0x66C9CC86, 0x1A4988DF, 0x14E22DF3, 0xBDE151B5, 0x47D91983]
    ++ [0x6B4B3854, 0x2E5AADB4, 0xD5736D77, 0xA48CAED4, 0xC76B71A9, 0xBC89722A, 0x91A5CAAB, 0xF45C4611]
    ++ [0x6379DE7D, 0xDA9ACE80, 0x97C00C1F, 0x3E2D54F3, 0xA263EE29, 0x12F15216, 0x7FAFE5B5, 0x4FD853C6]
    ++ [0x428E8445, 0xDD3CEF14, 0x8F4EE92B, 0x76848BE4, 0x18E587C8, 0xE6AF3C41, 0x6753D7D5, 0x49E260D5] := by decide +kernel

/-- The window after 63 steps (95_test_vectors.md 2.4). -/
theorem test_window : ((windowStep^[63] abcWords)[0], (windowStep^[63] abcWords)[4]) = (0xF07E6590, 0xB99C0545) := by decide +kernel

/-- CF(IV, 64 bytes 00) (95_test_vectors.md 2.5). -/
theorem test_cf_zero_block : cf iv (Vector.replicate 64 0) =
    #v[0xA1203A40, 0x4A5566CD, 0x536FCEE8, 0x20DF7E13, 0x35C58F56, 0xB7C4C62E, 0x813C32CC, 0x47BF9B6C] := by decide +kernel

/-- The source's digest of "abc" (95_test_vectors.md V-abc). -/
theorem test_sm3_abc : sm3 [0x61, 0x62, 0x63] =
    #v[0x66C7F0F4, 0x62EEEDD9, 0xD1F2D46B, 0xDC10E4E2, 0x4167C487, 0x5CF2F7A2, 0x297DA02B, 0x8F4BA8E0] := by decide +kernel

/-! ## One step each -/

/-- From reset with the first three bytes of "abc" in DIN. -/
def abcIn : State := { State.reset with din := 0x61626300 }

/-- The remainder is "abc" (95_test_vectors.md 2.6, first row). -/
def abcBuffered : State :=
  { State.reset with
    buf := (#v[0x61, 0x62, 0x63] : Vector Byte 3) ++ Vector.replicate 61 (0 : Byte), buflen := 3, len := 0x18 }

/-- A state with n bytes 0x61 in the remainder. -/
def bufferedA (n : Nat) : State :=
  { State.reset with
    buf := Vector.ofFn fun i => if i.val < n then 0x61 else 0, buflen := BitVec.ofNat 6 n, len := BitVec.ofNat 64 (8 * n) }

/-- A finalized, idle state. -/
def finalIdle : State := { State.reset with phase := .final, len := 0x18, v := iv.set 0 0x66C7F0F4 }

/-- A busy state: the engine compresses the all-zero block. -/
def busyState : State := startCompression State.reset (Vector.replicate 64 0)

theorem test_push3_status : after (exec .push3 abcIn) statusWord = some 0x00030000 := by decide +kernel
theorem test_push3_buf : after (exec .push3 abcIn) (fun t => (t.len, t.stream.remainder)) = some (0x18, [0x61, 0x62, 0x63]) := by decide +kernel

/-- 95_test_vectors.md 2.6: with BUFLEN = 62, `wr DIN, 0x11223344 ; push 4`. -/
theorem test_push4_block : after (exec .push4 { bufferedA 62 with din := 0x11223344 })
    (fun t => (statusWord t, t.stream.remainder, t.blk.toList.drop 60)) = some (0x00020001, [0x33, 0x44], [0x61, 0x61, 0x11, 0x22]) := by
  decide +kernel

/-- 95_test_vectors.md 2.6: the last rows, about the length limit. -/
theorem test_push2_overflow : after (exec .push2 { bufferedA 62 with len := 0xFFFFFFFFFFFFFFF0 }) (fun t => (statusWord t, t.len))
    = some (0x003E0400, 0xFFFFFFFFFFFFFFF0) := by decide +kernel
theorem test_push1_at_limit : after (exec .push1 { bufferedA 62 with len := 0xFFFFFFFFFFFFFFF0, errLen := true }) (fun t => (statusWord t, t.len))
    = some (0x003F0400, 0xFFFFFFFFFFFFFFF8) := by decide +kernel
theorem test_push0_at_limit : after (exec .push0 { bufferedA 63 with len := 0xFFFFFFFFFFFFFFF8 }) (fun t => (statusWord t, t.faults))
    = some (0x003F0000, []) := by decide +kernel
theorem test_push1_final : after (exec .push1 finalIdle) (fun t => (statusWord t, t.faults)) = some (0x00000206, [.sequence 0x12]) := by decide +kernel

/-- 95_test_vectors.md 2.7: the padded blocks of "abc" and of 56 bytes 0x61. -/
theorem test_finalize_abc : after (exec .finalize abcBuffered) (fun t => (statusWord t, t.wq)) = some (0x00000003, abcWords) := by decide +kernel
theorem test_finalize_56 : after (exec .finalize (bufferedA 56)) (fun t => (statusWord t, t.pend, t.blk.toList.drop 55))
    = some (0x00000003, true, [0x61, 0x80, 0, 0, 0, 0, 0, 0, 0]) := by decide +kernel

theorem test_nop : after (exec .nop State.reset) statusWord = some 0x00000000 := by decide
theorem test_nop_held : after (exec .nop busyState) (fun t => (t.j, t.inputs)) = some (1, [.host (.command 0)]) := by decide +kernel
theorem test_init : after (exec .init { finalIdle with errSeq := true, din := 5 }) (fun t => (statusWord t, t.len, t.din)) = some (0, 0, 5) := by
  decide +kernel

/-- 95_test_vectors.md 2.8: ILLEGAL (RSV bit 31), not FINALIZE. -/
theorem test_wrCmd_illegal : after (exec (.wrCmd 0x80000003) State.reset) (fun t => (statusWord t, t.faults))
    = some (0x00000100, [.illegalCommand 0x80000003]) := by decide +kernel
theorem test_wrCmd_push3 : after (exec (.wrCmd 0x00000032) abcIn) statusWord = some 0x00030000 := by decide +kernel
theorem test_wrDin_busy : after (exec (.wrDin 0xDEADBEEF) busyState) (fun t => (t.din, t.j)) = some (0xDEADBEEF, 0) := by decide +kernel
theorem test_rdDin : after (exec .rdDin { State.reset with din := 0xDEADBEEF }) State.responses = some [.value 0xDEADBEEF] := by decide

/-- 95_test_vectors.md 2.8: STATUS with ERR_SEQ and ERR_ILL set, FINAL, DVALID. -/
theorem test_rdStatus : after (exec .rdStatus { finalIdle with errSeq := true, errIll := true }) State.responses = some [.value 0x00000306] := by
  decide +kernel
theorem test_rdLenHi : after (exec .rdLenHi { State.reset with len := 0x123456789ABCDEF0 }) State.responses = some [.value 0x12345678] := by decide
theorem test_rdLenLo : after (exec .rdLenLo { State.reset with len := 0x123456789ABCDEF0 }) State.responses = some [.value 0x9ABCDEF0] := by decide
theorem test_rdDigest_valid : after (exec (.rdDigest 0) finalIdle) State.responses = some [.value 0x66C7F0F4] := by decide +kernel
theorem test_rdDigest_unspecified : after (exec (.rdDigest 0) State.reset) (fun t => (t.draws, t.faults)) = some (1, []) := by decide +kernel

/-- 95_test_vectors.md 2.8: an 8-bit read of STATUS is a bus error. -/
theorem test_bus_error : after (step { State.reset with inputs := [.host (.access 0x08 .read 8 0)] }) (fun t => (t.faults, t.responses))
    = some ([.busError .read 0x08 8], [.busError]) := by decide +kernel
theorem test_outside_window : after (step { State.reset with inputs := [.host (.access 0x40 .write 32 1)] }) (fun t => (t.faults, t.responses))
    = some ([], []) := by decide +kernel
theorem test_reset_while_busy : after (step { busyState with inputs := [.reset], faults := [.sequence 3], pend := true })
    (fun t => (t.busy, t.pend, t.faults)) = some (false, false, [.sequence 3]) := by decide +kernel

/-- With K = 64, one round step and one finish step hash the block of "abc" (95_test_vectors.md 2.5). -/
theorem test_engine_abc :
    (engineFinish (engineRound { busyState with
      params := { slot := 0, k := .k64, style := .unrolled }, wq := abcWords })).v =
    #v[0x66C7F0F4, 0x62EEEDD9, 0xD1F2D46B, 0xDC10E4E2, 0x4167C487, 0x5CF2F7A2, 0x297DA02B, 0x8F4BA8E0] := by decide +kernel

/-- With K = 1, one round step is round 0 (95_test_vectors.md 2.5). -/
theorem test_engine_round_0 : (engineStep { busyState with wq := abcWords }).regs.a = 0xB9EDC12B := by decide +kernel

/-- 30_encoding.md R80: the expansion of `pushbytes`. -/
theorem test_pushbytes : pushbytes Params.standard [0x61, 0x62, 0x63, 0x64, 0x65] =
    [.host (.access 4 .write 32 0x61626364), .host (.command 0x42), .host (.access 4 .write 32 0x65000000), .host (.command 0x12)] := by
  decide +kernel

/-! ## Witnesses: the hypotheses of the statements can be met -/

/-- A state whose next event is this bus access. -/
def withAccess (s : State) (a : BusAccess) : State :=
  { s with inputs := [.host (.access (s.params.base + a.off.toNat) a.dir a.width a.data)] }

/-- A state whose next event is this command word. -/
def withCommand (s : State) (w : Word) : State := { s with inputs := [.host (.command w)] }

/-- The engine at its finish step. -/
def finishState : State := { busyState with j := 64 }

theorem witness_IllegalCommandWords : State.reset.busy = false ∧ busyState.busy = true ∧
    [0x00000080, 0x80000003, 0x00000004, 0x0000000F, 0x00000052, 0x00000072, 0x00000010, 0x00000013].map decodeCmd
      = List.replicate 8 none := by decide

theorem witness_BusOperationCodes :
    [({ dir := .write, off := 0x00, width := 32, data := 5 } : BusAccess), { dir := .write, off := 0x04, width := 32, data := 5 },
      { dir := .read, off := 0x04, width := 32, data := 0 }, { dir := .read, off := 0x08, width := 32, data := 0 },
      { dir := .read, off := 0x10, width := 32, data := 0 }, { dir := .read, off := 0x14, width := 32, data := 0 },
      { dir := .read, off := 0x3C, width := 32, data := 0 }, { dir := .read, off := 0x1C, width := 32, data := 0 }].map BusAccess.bop
      = [0x40, 0x44, 0x04, 0x08, 0x10, 0x14, BitVec.ofNat 7 (0x20 + 4 * (7 : Fin 8).val), 0x1C#7] ∧
    0x1C#7 ∉ [0x40#7, 0x44#7, 0x04#7, 0x08#7, 0x10#7, 0x14#7, 0x20#7, 0x24#7, 0x28#7, 0x2C#7, 0x30#7, 0x34#7, 0x38#7, 0x3C#7] := by
  decide

theorem witness_FetchedTableWordRuns : decodeTableWord 32 0x42 = some .push4 ∧ decodeTableWord 8 0x3C = some (.rdDigest 7) := by decide

theorem witness_StepRunsDecodedInstruction : (withCommand State.reset 0x32).inputs = [.host (.command 0x32)] ∧
    presentedOp State.reset.params (.command 0x32) = some (.cmd 0x32) ∧ decode (.cmd 0x32) = .ok .push3 := ⟨rfl, rfl, rfl⟩

theorem witness_StepWithoutInstruction : busyState.inputs = [] ∧
    ({ busyState with inputs := [.engine] } : State).inputs = [.engine] ∧
    ({ State.reset with inputs := [.host (.access 64 .read 32 0)] } : State).inputs = [.host (.access 64 .read 32 0)] ∧
    State.reset.params.base + 64 ≤ 64 :=
  ⟨rfl, rfl, rfl, by decide⟩

/-- Each clause at a boundary value, and a good access. -/
theorem witness_BusErrorChangesNothing :
    let bad (a : BusAccess) : Bool := a.width ≠ 32 ∨ a.off.toNat % 4 ≠ 0 ∨ a.off ∈ [0x0C#6, 0x18#6, 0x1C#6] ∨
        (a.dir = .write ∧ (a.off ∈ [0x08#6, 0x10#6, 0x14#6] ∨ 0x20 ≤ a.off.toNat)) ∨ (a.dir = .read ∧ a.off = 0x00#6)
    [({ dir := .read, off := 0x08, width := 31, data := 0 } : BusAccess), { dir := .read, off := 0x3F, width := 32, data := 0 },
      { dir := .read, off := 0x1C, width := 32, data := 0 }, { dir := .write, off := 0x08, width := 32, data := 0 },
      { dir := .write, off := 0x20, width := 32, data := 0 }, { dir := .write, off := 0x3C, width := 32, data := 0 },
      { dir := .read, off := 0x00, width := 32, data := 0 },
      { dir := .read, off := 0x3C, width := 32, data := 0 }, { dir := .write, off := 0x00, width := 32, data := 0 }].map bad
      = [true, true, true, true, true, true, true, false, false] ∧
    (withAccess State.reset { dir := .read, off := 0x3F, width := 32, data := 0 }).inputs =
      [.host (.access (State.reset.params.base + (0x3F#6).toNat) .read 32 0)] := ⟨by decide, rfl⟩

/-- Held: a legal and an illegal word as a command, and a CMD write through the window. Not held: those of an idle block, and a DIN
write while BUSY = 1. -/
theorem witness_StepTakesEventsInOrder :
    (∀ w ∈ [0x00000000, 0x00000080], HeldNext (withCommand busyState w) ∧ ∃ t, step (withCommand busyState w) = .next t) ∧
    (let s := withAccess busyState { dir := .write, off := 0x00, width := 32, data := 0x01 };
      HeldNext s ∧ ∃ t, step s = .next t) ∧
    (¬ HeldNext (withCommand State.reset 0x00) ∧ ∃ t, step (withCommand State.reset 0x00) = .next t) ∧
    (let s := withAccess busyState { dir := .write, off := 0x04, width := 32, data := 0x01 };
      ¬ HeldNext s ∧ ∃ t, step s = .next t) := by
  refine ⟨fun w hw => ⟨⟨rfl, .inl ⟨w, rfl⟩⟩, ?_⟩, ⟨⟨rfl, .inr ⟨0x01, rfl⟩⟩, _, rfl⟩, ⟨fun h => absurd h.1 nofun, _, rfl⟩, ?_, _, rfl⟩
  · simp only [List.mem_cons, List.not_mem_nil, or_false] at hw
    rcases hw with rfl | rfl <;> exact ⟨_, rfl⟩
  · rintro ⟨-, ⟨w, h⟩ | ⟨w, h⟩⟩
    · cases h
    · exact absurd h (by rw [show nextInstr _ = some (.wrDin 0x01) from rfl]; nofun)

theorem witness_NopCompletes : State.reset.busy = false ∧ busyState.busy = true := ⟨rfl, rfl⟩

theorem witness_InitCompletes : finalIdle.busy = false ∧ ∃ t, exec .init finalIdle = .next t := ⟨rfl, _, rfl⟩

/-- The four cases of PUSH, at their boundary values: FINAL; LEN + 8 just over the limit; 63 bytes, and LEN at the limit; 64 and 67
bytes. -/
theorem witness_PushCompletes :
    (finalIdle.busy = false ∧ finalIdle.phase = .final) ∧
    (let s := { bufferedA 63 with len := 0xFFFFFFFFFFFFFFF8 };
      s.busy = false ∧ s.phase = .active ∧ 2 ^ 64 - 1 < s.len.toNat + 8 * (1 : Fin 5).val) ∧
    (let s := { bufferedA 62 with len := 0xFFFFFFFFFFFFFFF0 };
      s.busy = false ∧ s.phase = .active ∧ s.len.toNat + 8 * (1 : Fin 5).val ≤ 2 ^ 64 - 1 ∧ s.buflen.toNat + (1 : Fin 5).val < 64) ∧
    (let s := bufferedA 60;
      s.busy = false ∧ s.phase = .active ∧ s.len.toNat + 8 * (4 : Fin 5).val ≤ 2 ^ 64 - 1 ∧ 64 ≤ s.buflen.toNat + (4 : Fin 5).val) ∧
    (let s := bufferedA 63;
      s.busy = false ∧ s.phase = .active ∧ s.len.toNat + 8 * (4 : Fin 5).val ≤ 2 ^ 64 - 1 ∧ 64 ≤ s.buflen.toNat + (4 : Fin 5).val) := by
  decide

theorem witness_FinalizeCompletes : (finalIdle.busy = false ∧ finalIdle.phase = .final) ∧
    ((bufferedA 55).busy = false ∧ (bufferedA 55).phase = .active ∧ (bufferedA 55).buflen.toNat = 55) ∧
    ((bufferedA 56).busy = false ∧ (bufferedA 56).phase = .active ∧ (bufferedA 56).buflen.toNat = 56) := by decide

theorem witness_WriteCmdPerformsItsCommand : State.reset.busy = false ∧ decodeCmd 0x42 = some (.push 4) ∧ decodeCmd 0x52 = none ∧
    busyState.busy = true := by decide

theorem witness_BusyHoldsCommands : isCmdWrite (.wrCmd 0x1) = true ∧ isCmdWrite .finalize = true ∧ busyState.busy = true ∧
    ∃ t, exec .finalize busyState = .next t := ⟨rfl, rfl, rfl, _, rfl⟩

theorem witness_ReadDinReturnsLastWrite : ∃ t, exec (.wrDin 0x61626364) State.reset = .next t := ⟨_, rfl⟩

theorem witness_ReadDigestCompletes : (finalIdle.phase = .final ∧ finalIdle.busy = false) ∧
    ¬ (State.reset.phase = .final ∧ State.reset.busy = false) ∧
    ¬ (({ busyState with phase := .final } : State).phase = .final ∧ ({ busyState with phase := .final } : State).busy = false) := by decide

theorem witness_DigestReadsAreIdempotent : finalIdle.phase = .final ∧ finalIdle.busy = false ∧
    ∃ t u w, exec (.rdDigest 0) finalIdle = .next t ∧ exec (.rdDigest 7) t = .next u ∧ exec (.rdDigest 0) u = .next w :=
  ⟨rfl, rfl, _, _, _, rfl, rfl, rfl⟩

theorem witness_SequenceErrorKeepsDigest : ((∃ n, Command.push 0 = .push n) ∨ Command.push 0 = .finalize) ∧
    ((∃ n, Command.finalize = .push n) ∨ Command.finalize = .finalize) ∧ finalIdle.phase = .final ∧ finalIdle.busy = false ∧
    ∃ t, exec Command.finalize.toInstr finalIdle = .next t := ⟨.inl ⟨0, rfl⟩, .inr rfl, rfl, rfl, _, rfl⟩

theorem witness_ErrorPriority :
    (let a : BusAccess := { dir := .write, off := 0x03, width := 32, data := 0x80 };
      a.dir = .write ∧ (a.width ≠ 32 ∨ (a.off ≠ 0x00 ∧ a.off ≠ 0x04))) ∧
    (let a : BusAccess := { dir := .write, off := 0x00, width := 16, data := 0x80 };
      a.dir = .write ∧ (a.width ≠ 32 ∨ (a.off ≠ 0x00 ∧ a.off ≠ 0x04))) ∧
    (let a : BusAccess := { dir := .write, off := 0x3F, width := 32, data := 0x80 };
      a.dir = .write ∧ (a.width ≠ 32 ∨ (a.off ≠ 0x00 ∧ a.off ≠ 0x04))) ∧
    (decodeCmd 0x80 = none ∧ finalIdle.busy = false) ∧
    (let s := { finalIdle with len := 0xFFFFFFFFFFFFFFF8 };
      s.phase = .final ∧ s.busy = false) := by decide

theorem witness_OneCausePerStepNeverCleared : ∃ t, step (withCommand finalIdle 0x03) = .next t ∧ t.faults = [.sequence 0x03] :=
  ⟨_, rfl, by decide⟩

theorem witness_ErrorBitsAreSticky :
    (let s := withCommand { State.reset with errIll := true, errSeq := true, errLen := true } 0x00;
      (∃ t, step s = .next t) ∧ ¬ ResetNext s ∧ ¬ AcceptsNext s .init) ∧
    (let s := { busyState with errSeq := true, inputs := [.reset] };
      (∃ t, step s = .next t) ∧ ResetNext s) ∧
    (let s := withCommand { finalIdle with errSeq := true } 0x01;
      (∃ t, step s = .next t) ∧ AcceptsNext s .init) :=
  ⟨⟨⟨_, rfl⟩, nofun, by rintro ⟨_, h | h⟩ <;> exact absurd h (by decide)⟩, ⟨⟨_, rfl⟩, rfl⟩, ⟨⟨_, rfl⟩, rfl, .inl rfl⟩⟩

theorem witness_PermutationsLinear : (31 : Nat) < 32 := by decide

theorem witness_BooleanFunctionsBitwise : (31 : Nat) < 32 := by decide

theorem witness_ScheduleRecurrence : ((16 : Nat) ≤ 16 ∧ 16 ≤ 67) ∧ ((16 : Nat) ≤ 67 ∧ 67 ≤ 67) ∧ (63 : Nat) ≤ 63 := by decide

theorem witness_WindowHoldsSchedule : (52 : Nat) + (15 : Fin 16).val ≤ 67 ∧ (64 : Nat) + (3 : Fin 16).val ≤ 67 := by decide

theorem witness_EngineStepFrame : State.reset.busy = false ∧ (busyState.busy = true ∧ busyState.j.val < 64) ∧
    finishState.busy = true ∧ finishState.j.val = 64 := by decide

theorem witness_RoundStepPerformsKRounds :
    (busyState.busy = true ∧ busyState.j.val < 64 ∧ busyState.j.val + busyState.params.k.toNat ≤ 64) ∧
    (let s := { busyState with params := { slot := 0, k := .k64, style := .unrolled } };
      s.busy = true ∧ s.j.val < 64 ∧ s.j.val + s.params.k.toNat ≤ 64) ∧
    (let s := { busyState with j := 63 };
      s.busy = true ∧ s.j.val < 64 ∧ s.j.val + s.params.k.toNat ≤ 64) := by decide

theorem witness_FinishStepFeedsForward : finishState.busy = true ∧ finishState.j.val = 64 ∧ finishState.pend = false ∧
    ({ finishState with pend := true } : State).pend = true := by decide

theorem witness_EngineComputesCf : State.reset.pend = false ∧ 64 ≤ 64 / State.reset.params.k.toNat := by decide

theorem witness_EngineChainsLengthBlock : ({ State.reset with pend := true } : State).pend = true := rfl

theorem witness_ResultsIndependentOfParameters : (bufferedA 60).busy = false ∧ ∃ t, exec .push4 (bufferedA 60) = .next t := ⟨rfl, _, rfl⟩

theorem witness_DinWriteCommutesWithEngine : ∃ t, exec (.wrDin 0x61626364) busyState = .next t := ⟨_, rfl⟩

theorem witness_PushCommandIsSlicePush : (bufferedA 62).busy = false ∧ (bufferedA 62).pend = false ∧ (bufferedA 62).phase = .active ∧
    (bufferedA 62).len.toNat + 8 * (4 : Fin 5).val ≤ 2 ^ 64 - 1 := by decide

theorem witness_PushAbsorbsDinBytes : Absorbed (bufferedA 63) (List.replicate 63 0x61) ∧ 8 * ((List.replicate 63 (0x61 : Byte)).length + 4) ≤ 2 ^ 64 - 1 := by
  refine ⟨⟨?_, ?_, ?_, ?_, ?_, ?_, ?_⟩, ?_⟩ <;> decide +kernel

theorem witness_FinalizeYieldsSm3 : Absorbed (bufferedA 55) (List.replicate 55 0x61) ∧ Absorbed (bufferedA 56) (List.replicate 56 0x61) := by
  refine ⟨⟨?_, ?_, ?_, ?_, ?_, ?_, ?_⟩, ⟨?_, ?_, ?_, ?_, ?_, ?_, ?_⟩⟩ <;> decide +kernel

theorem witness_PaddedBlockCount : (([] : List Byte).length + 1 + 55 + 8) % 64 = 0 := by decide

theorem witness_OnlyInitOrResetDiscardsTheDigest :
    (dvalid finalIdle = true ∧ (∃ t, exec (Command.push 4).toInstr finalIdle = .next t) ∧
      ∃ t, exec Command.init.toInstr finalIdle = .next t) ∧
    (let s := withCommand finalIdle 0x80;
      dvalid s = true ∧ (∃ t, step s = .next t) ∧ ¬ ResetNext s ∧ ¬ AcceptsNext s .init) ∧
    (let s := withCommand finalIdle 0x01;
      dvalid s = true ∧ (∃ t, step s = .next t) ∧ AcceptsNext s .init) ∧
    (let s := { finalIdle with inputs := [.reset] };
      dvalid s = true ∧ (∃ t, step s = .next t) ∧ ResetNext s) :=
  ⟨⟨rfl, ⟨_, rfl⟩, _, rfl⟩, ⟨rfl, ⟨_, rfl⟩, nofun, by rintro ⟨_, h | h⟩ <;> exact absurd h (by decide)⟩,
    ⟨rfl, ⟨_, rfl⟩, rfl, .inl rfl⟩, rfl, ⟨_, rfl⟩, rfl⟩

theorem witness_HashStateChangesOnlyByRule : ∃ t, step finishState = .next t := ⟨_, rfl⟩

/-- A reset, an INIT, a PUSH that reaches the last length LenOK admits, and a step that is none of them: the PUSH one byte later. -/
theorem witness_LenChangesOnlyByRule :
    (let s := { abcIn with inputs := [.reset] }; (∃ t, step s = .next t) ∧ ResetNext s) ∧
    (let s := withCommand abcIn 0x01; (∃ t, step s = .next t) ∧ AcceptsNext s .init) ∧
    (let s := withCommand { bufferedA 62 with len := 0xFFFFFFFFFFFFFFF0 } 0x12;
      (∃ t, step s = .next t) ∧ AcceptsNext s (.push 1) ∧ s.phase = .active ∧ s.len.toNat + 8 * (1 : Fin 5).val ≤ 2 ^ 64 - 1) ∧
    (let s := withCommand { bufferedA 63 with len := 0xFFFFFFFFFFFFFFF8 } 0x12;
      (∃ t, step s = .next t) ∧ ¬ ResetNext s ∧ ¬ AcceptsNext s .init ∧
        ¬ ∃ n : Fin 5, AcceptsNext s (.push n) ∧ s.phase = .active ∧ s.len.toNat + 8 * n.val ≤ 2 ^ 64 - 1) := by
  refine ⟨⟨⟨_, rfl⟩, rfl⟩, ⟨⟨_, rfl⟩, rfl, .inl rfl⟩, ⟨⟨_, rfl⟩, ⟨rfl, .inl rfl⟩, rfl, by decide⟩, ⟨_, rfl⟩, nofun, ?_, ?_⟩
  · rintro ⟨_, h | h⟩ <;> exact absurd h (by decide)
  · rintro ⟨n, ⟨_, h⟩, -, hl⟩
    revert h hl
    revert n
    decide

theorem witness_DinChangesOnlyByRule : ∃ t, step (withAccess State.reset { dir := .write, off := 0x04, width := 32, data := 7 }) = .next t :=
  ⟨_, rfl⟩

theorem witness_PhaseChangesOnlyByRule :
    (∃ t, step (withCommand State.reset 0x03) = .next t ∧ State.reset.phase = .active ∧ t.phase = .final) ∧
    (∃ t, step (withCommand finalIdle 0x01) = .next t ∧ finalIdle.phase = .final ∧ t.phase = .active) :=
  ⟨⟨_, rfl, rfl, by decide⟩, ⟨_, rfl, rfl, by decide⟩⟩

theorem witness_ResetAtAnyTime : ({ busyState with inputs := [.reset] } : State).inputs = .reset :: [] := rfl

theorem witness_StepKeepsInv : Inv { busyState with inputs := [.reset] } ∧ ∃ t, step { busyState with inputs := [.reset] } = .next t := by
  refine ⟨⟨?_, ?_, ?_, ?_, ?_, ?_, ?_, ?_⟩, _, rfl⟩
  · intro _; decide
  · decide
  · intro h; exact absurd h (by decide)
  · intro h; exact absurd h (by decide)
  · intro _; decide
  · intro h; exact absurd h (by decide)
  · intro h; exact absurd h (by decide)
  · intro h; exact absurd h (by decide)

theorem witness_StepKeepsEngineOnTrack : EngineOnTrack busyState ∧ busyState.busy = true ∧ ∃ t, step busyState = .next t := by
  refine ⟨fun _ => ⟨rfl, ?_⟩, rfl, _, rfl⟩
  decide +kernel

end Sys2Proof.Tests
end

section
/-! The rotation bit by bit (R10), and the permutations P0 and P1 built from it (R94, R110). -/

namespace Sys2Proof.Machine

/-- The model's rotation is the library's, so the library's facts about bits apply to it. -/
theorem rotl_eq_rotateLeft (x : Word) (n : Nat) : rotl x n = x.rotateLeft n := rfl

/-- Bit `i` of a rotated word is bit `i − n` of the word, both modulo 32 (R10). -/
theorem getLsbD_rotl (x : Word) (n : Nat) {i : Nat} (hi : i < 32) :
    (rotl x n).getLsbD i = x.getLsbD ((i + 32 - n % 32) % 32) := by
  rw [rotl_eq_rotateLeft, BitVec.getLsbD_rotateLeft]
  by_cases hwrap : i < n % 32
  · have hsrc : (i + 32 - n % 32) % 32 = 32 - n % 32 + i := by omega
    simp [hwrap, hsrc]
  · have hsrc : (i + 32 - n % 32) % 32 = i - n % 32 := by omega
    simp [hwrap, hsrc, hi]

/-- A rotation only moves bits, so it is linear over exclusive-or. -/
theorem rotl_xor (x y : Word) (n : Nat) : rotl (x ^^^ y) n = rotl x n ^^^ rotl y n := by
  refine BitVec.eq_of_getLsbD_eq fun i hi => ?_
  simp only [BitVec.getLsbD_xor, getLsbD_rotl _ _ hi]

/-- The shape P0 and P1 share, a word and two of its rotations summed by exclusive-or, is linear whatever the two amounts are. -/
theorem xor_rotl_xor_rotl_linear (x y : Word) (m n : Nat) :
    (x ^^^ y) ^^^ rotl (x ^^^ y) m ^^^ rotl (x ^^^ y) n =
      (x ^^^ rotl x m ^^^ rotl x n) ^^^ (y ^^^ rotl y m ^^^ rotl y n) := by
  rw [rotl_xor, rotl_xor]
  ac_rfl

theorem p0_xor (x y : Word) : p0 (x ^^^ y) = p0 x ^^^ p0 y := xor_rotl_xor_rotl_linear x y 9 17

theorem p1_xor (x y : Word) : p1 (x ^^^ y) = p1 x ^^^ p1 y := xor_rotl_xor_rotl_linear x y 15 23

/-- Settles O32: the bits of a rotation and the linearity of P0 and P1 are the lemmas above, the two forms are the definitions, and
the all-zero and the all-one word are computed. -/
theorem permutationsLinear : Obligations.PermutationsLinear := by
  refine ⟨fun x n i hi => getLsbD_rotl x n hi, fun _ => rfl, fun _ => rfl, p0_xor, p1_xor, ?_, ?_, ?_, ?_⟩ <;> decide

end Sys2Proof.Machine
end
section
/-! The message schedule (41_message_schedule.md): what the array of expanded words holds at each index, and that the sliding window
holds sixteen of them in a row. -/

namespace Sys2Proof.Machine

theorem scheduleStep_iterate_length (n : Nat) (w : List Word) : (scheduleStep^[n] w).length = w.length + n := by
  induction n generalizing w with
  | zero => rfl
  | succ n ih =>
    have hlen : (scheduleStep w).length = w.length + 1 := by simp [scheduleStep]
    rw [Function.iterate_succ_apply, ih, hlen]
    omega

/-- The recurrence only appends, so a word once computed stands. -/
theorem scheduleStep_iterate_getD {k : Nat} (n : Nat) (w : List Word) (hk : k < w.length) :
    (scheduleStep^[n] w).getD k 0 = w.getD k 0 := by
  induction n generalizing w with
  | zero => rfl
  | succ n ih =>
    have hk' : k < (scheduleStep w).length := by simp only [scheduleStep, List.length_append]; omega
    rw [Function.iterate_succ_apply, ih _ hk', scheduleStep, List.getD_append _ _ _ _ hk]

/-- The first sixteen expanded words are the block's own (R111). -/
theorem expandedWord_of_lt (m : Window) (i : Fin 16) : expandedWord m i.val = m[i] := by
  have hi : i.val < m.toList.length := by simp
  rw [expandedWord, expandedWords, scheduleStep_iterate_getD 52 _ hi]
  simp

/-- An expanded word is already there in any earlier stage of the array that reaches its index. -/
theorem expandedWord_eq_getD_iterate (m : Window) {k n : Nat} (hk : k < 16 + n) (hn : n ≤ 52) :
    expandedWord m k = (scheduleStep^[n] m.toList).getD k 0 := by
  have hlt : k < (scheduleStep^[n] m.toList).length := by simpa [scheduleStep_iterate_length] using hk
  have hsplit : scheduleStep^[52] m.toList = scheduleStep^[52 - n] (scheduleStep^[n] m.toList) := by
    rw [← Function.iterate_add_apply, Nat.sub_add_cancel hn]
  rw [expandedWord, expandedWords, hsplit, scheduleStep_iterate_getD _ _ hlt]

/-- The recurrence of R111, written from the oldest word it reads. -/
theorem expandedWord_add_sixteen (m : Window) {j : Nat} (hj : j + 16 ≤ 67) :
    expandedWord m (j + 16) =
      p1 (expandedWord m j ^^^ expandedWord m (j + 7) ^^^ rotl (expandedWord m (j + 13)) 15)
        ^^^ rotl (expandedWord m (j + 3)) 7 ^^^ expandedWord m (j + 10) := by
  have hlen : (scheduleStep^[j] m.toList).length = j + 16 := by
    simp [scheduleStep_iterate_length, Nat.add_comm]
  rw [expandedWord_eq_getD_iterate m (n := j + 1) (by omega) (by omega), Function.iterate_succ_apply', scheduleStep,
    List.getD_append_right _ _ _ _ (by omega)]
  simp only [hlen, Nat.sub_self, List.getD_cons_zero, Nat.reduceSubDiff, Nat.add_sub_cancel]
  iterate 5 rw [expandedWord_eq_getD_iterate m (n := j) (by omega) (by omega)]

/-- The window `q` holds the expanded words from `W[j]` on, as far as they go (R116). -/
def WindowHolds (m : Window) (j : Nat) (q : Window) : Prop :=
  ∀ i : Fin 16, j + i.val ≤ 67 → q[i] = expandedWord m (j + i.val)

theorem windowHolds_words (m : Window) : WindowHolds m 0 m := fun i _ => by
  rw [Nat.zero_add, expandedWord_of_lt]

theorem windowStep_of_lt (q : Window) (i : Nat) (hi : i < 15) : (windowStep q)[i] = q[i + 1] := by
  simp only [windowStep, Vector.getElem_ofFn, dif_pos hi]

theorem windowStep_last (q : Window) :
    (windowStep q)[15] = p1 (q[0] ^^^ q[7] ^^^ rotl q[13] 15) ^^^ rotl q[3] 7 ^^^ q[10] := by
  simp only [windowStep, Vector.getElem_ofFn, Nat.lt_irrefl, dif_neg, not_false_eq_true]

/-- The window slides by one word (R115, R116). -/
theorem WindowHolds.windowStep {m q : Window} {j : Nat} (h : WindowHolds m j q) : WindowHolds m (j + 1) (windowStep q) := by
  rintro ⟨i, hlt⟩ hi
  simp only at hi
  have hw (k : Nat) (hk : k < 16) (hj : j + k ≤ 67) : q[k] = expandedWord m (j + k) := h ⟨k, hk⟩ hj
  by_cases hlast : i < 15
  · calc (Machine.windowStep q)[i] = q[i + 1] := windowStep_of_lt q i hlast
      _ = expandedWord m (j + (i + 1)) := hw (i + 1) (by omega) (by omega)
      _ = expandedWord m (j + 1 + i) := by rw [Nat.add_assoc, Nat.add_comm i 1]
  · obtain rfl : i = 15 := by omega
    calc (Machine.windowStep q)[15]
        = p1 (q[0] ^^^ q[7] ^^^ rotl q[13] 15) ^^^ rotl q[3] 7 ^^^ q[10] := windowStep_last q
      _ = expandedWord m (j + 16) := by
          rw [hw 0 (by omega) (by omega), hw 3 (by omega) (by omega), hw 7 (by omega) (by omega),
            hw 10 (by omega) (by omega), hw 13 (by omega) (by omega), expandedWord_add_sixteen m (by omega), Nat.add_zero]

end Sys2Proof.Machine
end
section
/-! What an accepted command does to the block, said once (45_digest_and_control.md R160, R161; 43_streaming_buffer.md R141;
44_finalizer.md R152), and the frame of the start of a final compression. -/

namespace Sys2Proof.Machine

@[simp] theorem startFinal_v (s : State) : (startFinal s).v = s.v := by unfold startFinal; split <;> rfl
@[simp] theorem startFinal_len (s : State) : (startFinal s).len = s.len := by unfold startFinal; split <;> rfl
@[simp] theorem startFinal_errIll (s : State) : (startFinal s).errIll = s.errIll := by unfold startFinal; split <;> rfl
@[simp] theorem startFinal_errSeq (s : State) : (startFinal s).errSeq = s.errSeq := by unfold startFinal; split <;> rfl
@[simp] theorem startFinal_errLen (s : State) : (startFinal s).errLen = s.errLen := by unfold startFinal; split <;> rfl
@[simp] theorem startFinal_din (s : State) : (startFinal s).din = s.din := by unfold startFinal; split <;> rfl
@[simp] theorem startFinal_busy (s : State) : (startFinal s).busy = true := by unfold startFinal; split <;> rfl
@[simp] theorem startFinal_j (s : State) : (startFinal s).j = 0 := by unfold startFinal; split <;> rfl
@[simp] theorem startFinal_faults (s : State) : (startFinal s).faults = s.faults := by unfold startFinal; split <;> rfl

/-- The cases of an accepted command. -/
inductive CommandEffect (s : State) : Command → State → Prop where
  /-- NOP (R160). -/
  | nop : CommandEffect s .nop s
  /-- INIT (R161). -/
  | init : CommandEffect s .init (acceptInit s)
  /-- A PUSH or FINALIZE rejected with one cause (R182, R183). -/
  | rejected (c : Command) (r : FaultRecord) (hc : c ≠ .init)
      (hn : ¬ ∃ n, c = .push n ∧ s.phase = .active ∧ s.len.toNat + 8 * n.val ≤ 2 ^ 64 - 1) :
      CommandEffect s c (raise r s)
  /-- A PUSH whose bytes are taken (R141). -/
  | pushed (n : Fin 5) (hp : s.phase = .active) (hl : s.len.toNat + 8 * n.val ≤ 2 ^ 64 - 1) :
      CommandEffect s (.push n) (pushBytes n.val s)
  /-- A FINALIZE that starts the final compressions (R152). -/
  | finalized (hp : s.phase = .active) : CommandEffect s .finalize { startFinal s with buflen := 0, phase := .final }

/-- Every accepted command is one of the cases of `CommandEffect`. -/
theorem commandEffect_performCommand (c : Command) (s : State) : CommandEffect s c (performCommand c s) := by
  cases c with
  | nop => exact .nop
  | init => exact .init
  | push n =>
    show CommandEffect s _ (acceptPush n s)
    rcases acceptPush_cases n s with ⟨hp, he⟩ | ⟨-, hl, he⟩ | ⟨hp, hl, he⟩ <;> rw [he]
    · exact .rejected _ _ nofun fun ⟨_, _, ha, _⟩ => by simp [hp] at ha
    · refine .rejected _ _ nofun fun ⟨k, hk, _, hle⟩ => ?_
      obtain rfl : n = k := by simpa using hk
      simp [lenOK_iff.mpr hle] at hl
    · exact .pushed n hp (lenOK_iff.mp hl)
  | finalize =>
    show CommandEffect s _ (acceptFinalize s)
    rcases acceptFinalize_cases s with ⟨-, he⟩ | ⟨hp, he⟩ <;> rw [he]
    · exact .rejected _ _ nofun fun ⟨_, hk, _⟩ => by cases hk
    · exact .finalized hp

variable {s t : State} {c : Command}

/-- Of the commands, INIT alone writes V (R21). -/
theorem CommandEffect.v_eq (h : CommandEffect s c t) : t.v = s.v ∨ (c = .init ∧ t.v = iv) := by
  cases h with
  | nop => exact .inl rfl
  | init => exact .inr ⟨rfl, rfl⟩
  | rejected _ r => exact .inl (raise_v r s)
  | pushed n => exact .inl (pushBytes_v n.val s)
  | finalized => exact .inl (startFinal_v s)

/-- No command writes DIN (R27). -/
theorem CommandEffect.din_eq (h : CommandEffect s c t) : t.din = s.din := by
  cases h with
  | nop => rfl
  | init => rfl
  | rejected _ r => exact raise_din r s
  | pushed n => exact pushBytes_din n.val s
  | finalized => exact startFinal_din s

/-- Of the commands, only an INIT and a PUSH whose bytes are taken write LEN (R22). -/
theorem CommandEffect.len_eq (h : CommandEffect s c t) (hc : c ≠ .init)
    (hn : ¬ ∃ n, c = .push n ∧ s.phase = .active ∧ s.len.toNat + 8 * n.val ≤ 2 ^ 64 - 1) : t.len = s.len := by
  cases h with
  | nop => rfl
  | init => exact absurd rfl hc
  | rejected _ r => exact raise_len r s
  | pushed n hp hl => exact absurd ⟨n, rfl, hp, hl⟩ hn
  | finalized => exact startFinal_len s

/-- PHASE becomes FINAL by FINALIZE and ACTIVE by INIT, and no other command writes it (R25). -/
theorem CommandEffect.phase_eq (h : CommandEffect s c t) :
    t.phase = s.phase ∨ (c = .init ∧ t.phase = .active) ∨ (c = .finalize ∧ t.phase = .final) := by
  cases h with
  | nop => exact .inl rfl
  | init => exact .inr (.inl ⟨rfl, rfl⟩)
  | rejected _ r => exact .inl (raise_phase r s)
  | pushed n => exact .inl (pushBytes_phase n.val s)
  | finalized => exact .inr (.inr ⟨rfl, rfl⟩)

/-- A LEN within the limit does not wrap when a PUSH adds to it (R144). -/
theorem pushBytes_len_toNat {n : Nat} (h : s.len.toNat + 8 * n ≤ 2 ^ 64 - 1) :
    (pushBytes n s).len.toNat = s.len.toNat + 8 * n := by
  rw [pushBytes_len, BitVec.toNat_add, BitVec.toNat_ofNat]
  omega

/-- In phase ACTIVE and within the limit a PUSH's bytes are taken, and LEN counts them (R22, R144). -/
theorem CommandEffect.len_of_pushed {n : Fin 5} (h : CommandEffect s (.push n) t) (hp : s.phase = .active)
    (hl : s.len.toNat + 8 * n.val ≤ 2 ^ 64 - 1) : t.len.toNat = s.len.toNat + 8 * n.val := by
  cases h with
  | rejected _ r hc hn => exact absurd ⟨n, rfl, hp, hl⟩ hn
  | pushed => exact pushBytes_len_toNat hl

/-- The error bits set in `s` are set in `t` (R26). -/
def KeepsErrors (s t : State) : Prop :=
  (s.errIll = true → t.errIll = true) ∧ (s.errSeq = true → t.errSeq = true) ∧ (s.errLen = true → t.errLen = true)

/-- Raising a cause sets at most a bit and clears none (R180 to R184). -/
theorem keepsErrors_raise (r : FaultRecord) (s : State) : KeepsErrors s (raise r s) := by
  cases r with
  | illegalCommand w => exact ⟨fun _ => rfl, id, id⟩
  | sequence w => exact ⟨id, fun _ => rfl, id⟩
  | lengthOverflow w n => exact ⟨id, id, fun _ => rfl⟩
  | busError d o w => exact ⟨id, id, id⟩

theorem keepsErrors_engineStep (s : State) : KeepsErrors s (engineStep s) := by
  simp [KeepsErrors]

/-- No command but INIT clears an error bit (R26, R190). -/
theorem CommandEffect.keepsErrors (h : CommandEffect s c t) (hc : c ≠ .init) : KeepsErrors s t := by
  cases h with
  | nop => exact ⟨id, id, id⟩
  | init => exact absurd rfl hc
  | rejected _ r => exact keepsErrors_raise r s
  | pushed n => simp [KeepsErrors]
  | finalized => simp [KeepsErrors]

end Sys2Proof.Machine
end
section
/-! The rules about every step: what it does to V, LEN, PHASE, DIN and the error bits. Each goes through `StepEffect` and
`CommandEffect`. -/

namespace Sys2Proof.Machine

/-- An engine step writes V at its finish step only (R121, R122, R124). -/
theorem engineStep_v_cases (s : State) :
    (engineStep s).v = s.v ∨ (s.busy = true ∧ s.j.val = 64 ∧ (engineStep s).v = feedForward s.v s.regs) := by
  cases hb : s.busy with
  | false => exact .inl (by rw [engineStep_idle hb])
  | true =>
    by_cases hj : s.j.val < 64
    · exact .inl (by rw [engineStep_round hb hj, engineRound_v])
    · have hj : s.j.val = 64 := by omega
      refine .inr ⟨rfl, hj, ?_⟩
      rw [engineStep_finish hb hj, engineFinish]
      split <;> rfl

/-- A reset or an INIT discards the stream: V, LEN, PHASE and the error bits are as after reset (R161, R200). -/
theorem step_of_reset_or_init {s t : State} (h : step s = .next t) (hs : ResetNext s ∨ AcceptsNext s .init) :
    t.v = iv ∧ t.len = 0 ∧ t.phase = .active ∧ t.errIll = false ∧ t.errSeq = false ∧ t.errLen = false := by
  rcases hs with hs | hs
  · rw [step_of_resetNext hs] at h
    cases h
    simp
  · rw [step_of_acceptsNext hs] at h
    cases h
    simp [performCommand]

/-- Settles O52: only the engine's finish step, INIT and reset are left by the cases of a step. -/
theorem hashStateChangesOnlyByRule : Obligations.HashStateChangesOnlyByRule := by
  intro s t h
  cases stepEffect_of_step h with
  | engine l => exact (engineStep_v_cases { s with inputs := l }).imp_right .inl
  | reset l hr => exact .inr (.inr ⟨.inl hr, rfl⟩)
  | elsewhere l => exact .inl rfl
  | busError l a => exact .inl rfl
  | din l v => exact .inl rfl
  | read l x d => exact .inl rfl
  | illegal l w => exact .inl rfl
  | command l c hc =>
    rcases (commandEffect_performCommand c { s with inputs := l }).v_eq with hv | ⟨rfl, hv⟩
    · exact .inl hv
    · exact .inr (.inr ⟨.inr hc, hv⟩)

/-- Settles O54: only a reset and a DIN write reach DIN. -/
theorem dinChangesOnlyByRule : Obligations.DinChangesOnlyByRule := by
  intro s t h
  cases stepEffect_of_step h with
  | engine l => exact .inl (engineStep_din _)
  | reset l hr => exact .inr (.inl ⟨hr, rfl⟩)
  | elsewhere l => exact .inl rfl
  | busError l a => exact .inl rfl
  | din l v hv => exact .inr (.inr ⟨v, hv, rfl⟩)
  | read l x d => exact .inl rfl
  | illegal l w => exact .inl rfl
  | command l c => exact .inl (commandEffect_performCommand c { s with inputs := l }).din_eq

/-- PHASE changes only by FINALIZE, INIT or reset (R25). -/
theorem phase_cases_of_step {s t : State} (h : step s = .next t) :
    t.phase = s.phase ∨ ((ResetNext s ∨ AcceptsNext s .init) ∧ t.phase = .active) ∨
      (AcceptsNext s .finalize ∧ t.phase = .final) := by
  cases stepEffect_of_step h with
  | engine l => exact .inl (engineStep_phase _)
  | reset l hr => exact .inr (.inl ⟨.inl hr, rfl⟩)
  | elsewhere l => exact .inl rfl
  | busError l a => exact .inl rfl
  | din l v => exact .inl rfl
  | read l x d => exact .inl rfl
  | illegal l w => exact .inl rfl
  | command l c hc =>
    rcases (commandEffect_performCommand c { s with inputs := l }).phase_eq with hp | ⟨rfl, hp⟩ | ⟨rfl, hp⟩
    · exact .inl hp
    · exact .inr (.inl ⟨.inr hc, hp⟩)
    · exact .inr (.inr ⟨hc, hp⟩)

/-- Settles O55, from the three cases of `phase_cases_of_step`. -/
theorem phaseChangesOnlyByRule : Obligations.PhaseChangesOnlyByRule := by
  intro s t h
  refine ⟨fun hs ht => ?_, fun hs ht => ?_⟩ <;>
    rcases phase_cases_of_step h with hp | ⟨hr, hp⟩ | ⟨hf, hp⟩
  · simp [hs, ht] at hp
  · simp [ht] at hp
  · exact hf
  · simp [hs, ht] at hp
  · exact hr
  · simp [ht] at hp

/-- A step that neither resets, nor accepts INIT, nor takes a PUSH's bytes leaves LEN as it was (R22). -/
theorem len_eq_of_step {s t : State} (h : step s = .next t) (hr : ¬ ResetNext s) (hi : ¬ AcceptsNext s .init)
    (hn : ¬ ∃ n : Fin 5, AcceptsNext s (.push n) ∧ s.phase = .active ∧ s.len.toNat + 8 * n.val ≤ 2 ^ 64 - 1) :
    t.len = s.len := by
  cases stepEffect_of_step h with
  | engine l => exact engineStep_len _
  | reset l hr' => exact absurd hr' hr
  | elsewhere l => rfl
  | busError l a => rfl
  | din l v => rfl
  | read l x d => rfl
  | illegal l w => rfl
  | command l c hc =>
    refine (commandEffect_performCommand c { s with inputs := l }).len_eq ?_ ?_
    · rintro rfl
      exact hi hc
    · rintro ⟨n, rfl, hp, hl⟩
      exact hn ⟨n, hc, hp, hl⟩

/-- Settles O53: a reset or an INIT, an accepted PUSH within the limit, and every other step. -/
theorem lenChangesOnlyByRule : Obligations.LenChangesOnlyByRule := by
  intro s t h
  refine ⟨fun hs => ?_, fun n hn hp hl => ?_, len_eq_of_step h⟩
  · obtain ⟨-, hlen, -⟩ := step_of_reset_or_init h hs
    exact hlen
  · rw [step_of_acceptsNext hn] at h
    cases h
    exact (commandEffect_performCommand (.push n) { s with inputs := s.inputs.tail }).len_of_pushed hp hl

/-- A step that is no reset and accepts no INIT clears no error bit (R26). -/
theorem keepsErrors_of_step {s t : State} (h : step s = .next t) (hr : ¬ ResetNext s) (hi : ¬ AcceptsNext s .init) :
    KeepsErrors s t := by
  cases stepEffect_of_step h with
  | engine l => exact keepsErrors_engineStep { s with inputs := l }
  | reset l hr' => exact absurd hr' hr
  | elsewhere l => exact ⟨id, id, id⟩
  | busError l a => exact keepsErrors_raise _ { s with inputs := l }
  | din l v => exact ⟨id, id, id⟩
  | read l x d => exact ⟨id, id, id⟩
  | illegal l w => exact keepsErrors_raise _ { s with inputs := l }
  | command l c hc =>
    refine (commandEffect_performCommand c { s with inputs := l }).keepsErrors ?_
    rintro rfl
    exact hi hc

/-- Settles O30: the sticky side is `keepsErrors_of_step`, the clearing side the step of a reset or an INIT. -/
theorem errorBitsAreSticky : Obligations.ErrorBitsAreSticky := by
  intro s t h
  refine ⟨keepsErrors_of_step h, fun hs => ?_⟩
  obtain ⟨-, -, -, herrors⟩ := step_of_reset_or_init h hs
  exact herrors

end Sys2Proof.Machine
end
section
/-! The engine on the track of the compression function (42_round_engine.md R120 to R124, 40_compression.md R104). -/

namespace Sys2Proof.Machine

theorem runRounds_succ (v : HashState) (m : Window) (n : Nat) :
    runRounds v m (n + 1) = compressRound n (runRounds v m n) (expandedWord m n) (mixedWord m n) := by
  rw [runRounds, List.range_succ, List.foldl_concat, ← runRounds]

/-- What is asked of an engine on the track: its registers are those after J rounds and its window starts at W[J]. -/
theorem engineOnTrack_iff {s : State} : EngineOnTrack s ↔
    (s.busy = true → s.regs = runRounds s.v (words s.blk) s.j.val ∧ WindowHolds (words s.blk) s.j.val s.wq) := Iff.rfl

/-- The track says nothing of an idle engine. -/
theorem engineOnTrack_of_idle {s : State} (h : s.busy = false) : EngineOnTrack s := fun hb => by
  simp [h] at hb

/-- A compression starts on the track (R120). -/
theorem engineOnTrack_startCompression (s : State) (b : Block) : EngineOnTrack (startCompression s b) := fun _ =>
  ⟨rfl, windowHolds_words (words b)⟩

/-- One round keeps the track: WQ[0] and WQ[0] ⊕ WQ[4] are the words the round of CF takes (R96, R112, R122). -/
theorem EngineOnTrack.roundOnce {s : State} (h : EngineOnTrack s) : EngineOnTrack (roundOnce s) := by
  by_cases hj : s.j.val < 64
  · obtain ⟨hregs, hwq, hj'⟩ := roundOnce_of_lt hj
    rw [engineOnTrack_iff, hregs, hwq, hj', roundOnce_busy, roundOnce_v, roundOnce_blk]
    intro hb
    obtain ⟨hr, hw⟩ := engineOnTrack_iff.mp h hb
    have hw0 : s.wq[0] = expandedWord (words s.blk) s.j.val := hw 0 (by simp only [Fin.val_zero]; omega)
    have hw4 : s.wq[4] = expandedWord (words s.blk) (s.j.val + 4) := hw 4 (by show s.j.val + 4 ≤ 67; omega)
    refine ⟨?_, hw.windowStep⟩
    rw [runRounds_succ, ← hr, mixedWord, hw0, hw4]
  · rwa [roundOnce_of_ge hj]

/-- K rounds keep the track (R122). -/
theorem EngineOnTrack.engineRound {s : State} (h : EngineOnTrack s) : EngineOnTrack (engineRound s) :=
  Function.Iterate.rec EngineOnTrack h (fun _ ht => ht.roundOnce) s.params.k.toNat

/-- The finish step ends the compression, or starts that of the length block (R124). -/
theorem engineOnTrack_engineFinish (s : State) : EngineOnTrack (engineFinish s) := by
  unfold engineFinish
  split
  · exact engineOnTrack_startCompression _ _
  · exact engineOnTrack_of_idle rfl

theorem EngineOnTrack.engineStep {s : State} (h : EngineOnTrack s) : EngineOnTrack (engineStep s) := by
  unfold Machine.engineStep
  split
  · split
    · exact h.engineRound
    · exact engineOnTrack_engineFinish s
  · exact h

/-- A byte pushed leaves the engine alone, or starts a compression (R141). -/
theorem EngineOnTrack.pushByte {s : State} (h : EngineOnTrack s) (x : Byte) : EngineOnTrack (pushByte s x) := by
  rcases pushByte_cases s x with ⟨-, he⟩ | ⟨-, he⟩ <;> rw [he]
  · exact h
  · exact engineOnTrack_startCompression { s with buf := s.buf.set s.buflen.toNat x } _

theorem EngineOnTrack.pushBytes {s : State} (h : EngineOnTrack s) (n : Nat) : EngineOnTrack (pushBytes n s) :=
  List.foldlRecOn (motive := EngineOnTrack) _ _ h fun _ ht x _ => ht.pushByte x

theorem EngineOnTrack.raise {s : State} (h : EngineOnTrack s) (r : FaultRecord) : EngineOnTrack (raise r s) := by
  cases r <;> exact h

theorem engineOnTrack_startFinal (s : State) : EngineOnTrack (startFinal s) := by
  rcases startFinal_cases s with ⟨-, he⟩ | ⟨-, he⟩ <;> rw [he]
  · exact engineOnTrack_startCompression _ _
  · exact engineOnTrack_startCompression _ _

/-- An accepted command keeps the track; INIT does because it is accepted by an idle block only (R201). -/
theorem CommandEffect.engineOnTrack {s t : State} {c : Command} (h : CommandEffect s c t) (hb : s.busy = false)
    (hs : EngineOnTrack s) : EngineOnTrack t := by
  cases h with
  | nop => exact hs
  | init => exact engineOnTrack_of_idle hb
  | rejected _ r => exact hs.raise r
  | pushed n => exact hs.pushBytes n.val
  | finalized => exact engineOnTrack_startFinal s

/-- Settles O60: the engine's own steps keep the track, a reset leaves the engine idle, a command starts a compression on the track or
leaves the engine alone, and so does every other step. -/
theorem stepKeepsEngineOnTrack : Obligations.StepKeepsEngineOnTrack := by
  intro s t hs h
  cases stepEffect_of_step h with
  | engine l => exact EngineOnTrack.engineStep (s := { s with inputs := l }) hs
  | reset l => exact engineOnTrack_of_idle rfl
  | elsewhere l => exact hs
  | busError l a => exact hs
  | din l v => exact hs
  | read l x d => exact hs
  | illegal l w => exact hs
  | command l c hc => exact (commandEffect_performCommand c { s with inputs := l }).engineOnTrack hc.1 hs

end Sys2Proof.Machine
end
section
/-! The invariant `Inv`: each operation of the machine keeps it. -/

namespace Sys2Proof.Machine

/-- The engine is idle or J is a multiple of K (R122). -/
def OnStride (s : State) : Prop := s.busy = true → s.params.k.toNat ∣ s.j.val

theorem onStride_startCompression (s : State) (b : Block) : OnStride (startCompression s b) := fun _ => Nat.dvd_zero _

/-- J below 64 and on the stride has room for K rounds, because K divides 64 (R8, R122). -/
theorem j_add_k_le {s : State} (h : s.params.k.toNat ∣ s.j.val) (hj : s.j.val < 64) : s.j.val + s.params.k.toNat ≤ 64 := by
  have hk : s.params.k.toNat ∣ 64 - s.j.val := Nat.dvd_sub (roundsPerStep_dvd _) h
  have := Nat.le_of_dvd (by omega) hk
  omega

/-- K rounds that do not pass 64 advance J by K (R122). -/
theorem engineRound_j {s : State} (h : s.j.val + s.params.k.toNat ≤ 64) :
    (engineRound s).j.val = s.j.val + s.params.k.toNat :=
  roundOnce_iterate_j _ s h

theorem OnStride.engineStep {s : State} (h : OnStride s) : OnStride (engineStep s) := by
  cases hb : s.busy with
  | false => rwa [engineStep_idle hb]
  | true =>
    by_cases hj : s.j.val < 64
    · intro _
      rw [engineStep_params, engineStep_round hb hj, engineRound_j (j_add_k_le (h hb) hj)]
      exact Nat.dvd_add (h hb) (Nat.dvd_refl _)
    · rw [engineStep_finish hb (by omega), engineFinish]
      split
      · exact onStride_startCompression _ _
      · exact nofun

theorem OnStride.pushByte {s : State} (h : OnStride s) (x : Byte) : OnStride (pushByte s x) := by
  rcases pushByte_cases s x with ⟨-, he⟩ | ⟨-, he⟩ <;> rw [he]
  · exact h
  · exact onStride_startCompression { s with buf := s.buf.set s.buflen.toNat x } (s.buf.set s.buflen.toNat x)

theorem OnStride.pushBytes {s : State} (h : OnStride s) (n : Nat) : OnStride (pushBytes n s) :=
  List.foldlRecOn (motive := OnStride) _ _ h fun _ ht x _ => ht.pushByte x

/-- Each byte pushed advances BUFLEN modulo 64 (R141). -/
theorem pushByte_buflen (s : State) (x : Byte) : (pushByte s x).buflen.toNat = (s.buflen.toNat + 1) % 64 := by
  rcases pushByte_cases s x with ⟨-, he⟩ | ⟨hlast, he⟩ <;> rw [he]
  · simp
  · simp [hlast]

theorem foldl_pushByte_buflen (l : List Byte) (s : State) :
    (l.foldl pushByte s).buflen.toNat = (s.buflen.toNat + l.length) % 64 := by
  induction l generalizing s with
  | nil => exact (Nat.mod_eq_of_lt s.buflen.isLt).symm
  | cons x l ih => rw [List.foldl_cons, ih, pushByte_buflen, List.length_cons]; omega

theorem dinBytes_length (w : Word) (n : Nat) : (dinBytes w n).length = n := by simp [dinBytes]

theorem pushBytes_buflen (n : Nat) (s : State) : (pushBytes n s).buflen.toNat = (s.buflen.toNat + n) % 64 := by
  rw [pushBytes, foldl_pushByte_buflen, dinBytes_length]

/-- The invariant speaks of the block, and of neither DIN nor the host's side of the bus. -/
theorem Inv.withHostSide {s : State} (h : Inv s) (l : List Event) (w : Word) (rs : List Response) (d : Nat) :
    Inv { s with inputs := l, din := w, responses := rs, draws := d } where
  buflen_of_len := h.buflen_of_len
  len_whole_bytes := h.len_whole_bytes
  final_empty := h.final_empty
  pend_during_final := h.pend_during_final
  j_stride := h.j_stride
  err_ill_recorded := h.err_ill_recorded
  err_seq_recorded := h.err_seq_recorded
  err_len_recorded := h.err_len_recorded

theorem Inv.respond {s : State} (h : Inv s) (r : Response) : Inv (respond r s) :=
  h.withHostSide s.inputs s.din (s.responses ++ [r]) s.draws

theorem inv_resetMachine (s : State) : Inv (resetMachine s) where
  buflen_of_len := by simp
  len_whole_bytes := rfl
  final_empty := nofun
  pend_during_final := nofun
  j_stride := nofun
  err_ill_recorded := nofun
  err_seq_recorded := nofun
  err_len_recorded := nofun

/-- A raised cause is recorded, and the records before it stay (R187). -/
theorem Inv.raise {s : State} (h : Inv s) (r : FaultRecord) : Inv (raise r s) where
  buflen_of_len := by simpa using h.buflen_of_len
  len_whole_bytes := by simpa using h.len_whole_bytes
  final_empty := by simpa using h.final_empty
  pend_during_final := by simpa using h.pend_during_final
  j_stride := by simpa using h.j_stride
  err_ill_recorded hb := by
    rw [raise_faults]
    cases r with
    | illegalCommand w => exact ⟨w, by simp⟩
    | _ => exact (h.err_ill_recorded hb).imp fun _ hw => List.mem_append_left _ hw
  err_seq_recorded hb := by
    rw [raise_faults]
    cases r with
    | sequence w => exact ⟨w, by simp⟩
    | _ => exact (h.err_seq_recorded hb).imp fun _ hw => List.mem_append_left _ hw
  err_len_recorded hb := by
    rw [raise_faults]
    cases r with
    | lengthOverflow w n => exact ⟨w, n, by simp⟩
    | _ => exact (h.err_len_recorded hb).imp fun _ hw => hw.imp fun _ hn => List.mem_append_left _ hn

/-- A compression that is still pending after an engine step was pending before it, and the engine stays busy (R33, R124). -/
theorem engineStep_pend {s : State} (h : (engineStep s).pend = true) : s.pend = true ∧ (engineStep s).busy = s.busy := by
  cases hb : s.busy with
  | false => rw [engineStep_idle hb] at h ⊢; exact ⟨h, hb⟩
  | true =>
    by_cases hj : s.j.val < 64
    · rw [engineStep_round hb hj] at h ⊢
      simpa [hb] using h
    · rw [engineStep_finish hb (by omega), engineFinish] at h
      split at h
      · simp at h
      · contradiction

theorem Inv.engineStep {s : State} (h : Inv s) : Inv (engineStep s) where
  buflen_of_len := by simpa using h.buflen_of_len
  len_whole_bytes := by simpa using h.len_whole_bytes
  final_empty := by simpa using h.final_empty
  pend_during_final hp := by
    obtain ⟨hs, hb⟩ := engineStep_pend hp
    rw [hb, engineStep_phase]
    exact h.pend_during_final hs
  j_stride := OnStride.engineStep h.j_stride
  err_ill_recorded := by simpa using h.err_ill_recorded
  err_seq_recorded := by simpa using h.err_seq_recorded
  err_len_recorded := by simpa using h.err_len_recorded

/-- INIT, accepted by an idle block (R161). -/
theorem inv_acceptInit {s : State} (hb : s.busy = false) : Inv (acceptInit s) where
  buflen_of_len := by simp
  len_whole_bytes := rfl
  final_empty := nofun
  pend_during_final := nofun
  j_stride := by simp [hb]
  err_ill_recorded := nofun
  err_seq_recorded := nofun
  err_len_recorded := nofun

/-- Nothing is pending in an idle block (R33). -/
theorem Inv.pend_of_idle {s : State} (h : Inv s) (hb : s.busy = false) : s.pend = false := by
  by_contra hp
  obtain ⟨hbusy, -⟩ := h.pend_during_final (by simpa using hp)
  simp [hb] at hbusy

/-- A PUSH whose bytes are taken advances LEN / 8 and BUFLEN together (R24, R141, R144). -/
theorem Inv.pushBytes {s : State} (h : Inv s) (hb : s.busy = false) {n : Nat} (hp : s.phase = .active)
    (hl : s.len.toNat + 8 * n ≤ 2 ^ 64 - 1) : Inv (pushBytes n s) where
  buflen_of_len _ := by
    have := h.buflen_of_len hp
    rw [pushBytes_len_toNat hl, pushBytes_buflen]
    omega
  len_whole_bytes := by
    have := h.len_whole_bytes
    rw [pushBytes_len_toNat hl]
    omega
  final_empty hf := by simp [hp] at hf
  pend_during_final hs := by simp [h.pend_of_idle hb] at hs
  j_stride := OnStride.pushBytes h.j_stride n
  err_ill_recorded := by simpa using h.err_ill_recorded
  err_seq_recorded := by simpa using h.err_seq_recorded
  err_len_recorded := by simpa using h.err_len_recorded

/-- A FINALIZE that starts the final compressions (R152). -/
theorem Inv.finalize {s : State} (h : Inv s) : Inv { startFinal s with buflen := 0, phase := .final } where
  buflen_of_len := nofun
  len_whole_bytes := by simpa using h.len_whole_bytes
  final_empty _ := rfl
  pend_during_final _ := ⟨startFinal_busy s, rfl⟩
  j_stride _ := by simp
  err_ill_recorded := by simpa using h.err_ill_recorded
  err_seq_recorded := by simpa using h.err_seq_recorded
  err_len_recorded := by simpa using h.err_len_recorded

theorem CommandEffect.inv {s t : State} {c : Command} (h : CommandEffect s c t) (hb : s.busy = false) (hs : Inv s) : Inv t := by
  cases h with
  | nop => exact hs
  | init => exact inv_acceptInit hb
  | rejected _ r => exact hs.raise r
  | pushed n hp hl => exact hs.pushBytes hb hp hl
  | finalized => exact hs.finalize

/-- Settles O59: taking an event off the list keeps the invariant, and then so does each operation a step can perform. -/
theorem stepKeepsInv : Obligations.StepKeepsInv := by
  intro s t hs h
  have hl (l : List Event) : Inv { s with inputs := l } := hs.withHostSide l s.din s.responses s.draws
  cases stepEffect_of_step h with
  | engine l => exact (hl l).engineStep
  | reset l => exact inv_resetMachine _
  | elsewhere l => exact hl l
  | busError l a => exact ((hl l).raise _).respond _
  | din l v => exact (hs.withHostSide l v s.responses s.draws).respond _
  | read l x d => exact (hs.withHostSide l s.din s.responses d).respond _
  | illegal l w => exact ((hl l).raise _).respond _
  | command l c hc =>
    exact ((commandEffect_performCommand c { s with inputs := l }).inv hc.1 (hl l)).respond _

end Sys2Proof.Machine
end
section
/-! The decoder against the tables (10_state.md R38, 20_memory.md R52, R53, 30_encoding.md R75, R77). -/

namespace Sys2Proof

/-- Whether a code is defined does not depend on DATA (R71). -/
theorem decodeBusCode_isSome (a : BusAccess) : (decodeBusCode a).isSome = (decodeBusCode { a with data := 0 }).isSome := by
  unfold decodeBusCode BusAccess.bop
  split_ifs <;> rfl

/-- At width 32 only the 128 pairs of direction and offset are left to check: the bus check accepts what the register map has a row
for, and the code is then defined. -/
theorem busCheck_of_width_ok (d : Dir) (o : BitVec 6) :
    (busCheck ⟨d, o, 32, 0⟩ = none ↔ BusAccess.registerOk ⟨d, o, 32, 0⟩ = true) ∧
    (busCheck ⟨d, o, 32, 0⟩ = none → (decodeBusCode ⟨d, o, 32, 0⟩).isSome = true) := by
  cases d <;> revert o <;> decide

/-- The bus check accepts exactly the well-formed accesses (R38, R52, R53). -/
theorem busCheck_eq_none_iff (a : BusAccess) : busCheck a = none ↔ a.wellFormed = true := by
  obtain ⟨d, o, width, v⟩ := a
  by_cases hw : width = 32
  · subst hw
    obtain ⟨hiff, -⟩ := busCheck_of_width_ok d o
    exact hiff
  · simp [busCheck, BusAccess.wellFormed, BusAccess.widthOk, hw]

/-- An access that passes the bus check has a defined code (R53, R71). -/
theorem decodeBusCode_of_busCheck {a : BusAccess} (h : busCheck a = none) : (decodeBusCode a).isSome = true := by
  obtain ⟨d, o, width, v⟩ := a
  obtain rfl : width = 32 := by
    by_contra hn
    simp [busCheck, hn] at h
  rw [decodeBusCode_isSome]
  exact (busCheck_of_width_ok d o).2 h

theorem word_mem_legalCommandWords (c : Command) : c.word ∈ legalCommandWords := by
  cases c with
  | push n => revert n; decide
  | _ => decide

/-- A command word decodes exactly when it is in the list of R75. -/
theorem decodeCmd_isSome_iff (w : Word) : (decodeCmd w).isSome = true ↔ w ∈ legalCommandWords := by
  constructor
  · intro h
    obtain ⟨c, hc⟩ := Option.isSome_iff_exists.mp h
    rw [Machine.decodeCmd_eq_word hc]
    exact word_mem_legalCommandWords c
  · have hall : (legalCommandWords.all fun v => (decodeCmd v).isSome) = true := by decide
    exact List.all_eq_true.mp hall w

/-- Settles O6: for a bus access through the bus check, for a command word through the list of R75. -/
theorem decodeAcceptsExactlyTheTables : Obligations.DecodeAcceptsExactlyTheTables := by
  intro op
  cases op with
  | bus a =>
    rw [HostOp.wellFormed, ← busCheck_eq_none_iff, decode]
    cases hc : busCheck a with
    | some e => simp
    | none =>
      obtain ⟨i, hi⟩ := Option.isSome_iff_exists.mp (decodeBusCode_of_busCheck hc)
      simp [hi]
  | cmd w =>
    rw [HostOp.wellFormed, List.contains_iff_mem, ← decodeCmd_isSome_iff, decode]
    cases decodeCmd w <;> simp

end Sys2Proof
end
section
/-! STATUS field by field (10_state.md R40), and the values after reset (R20, R200). -/

namespace Sys2Proof.Machine

/-- A concatenation as arithmetic: the low part is the remainder. -/
theorem toNat_append_eq_add {m n : Nat} (x : BitVec m) (y : BitVec n) : (x ++ y).toNat = x.toNat * 2 ^ n + y.toNat := by
  rw [BitVec.toNat_append, ← Nat.shiftLeft_add_eq_or_of_lt y.isLt, Nat.shiftLeft_eq]

/-- The STATUS word as a sum (R40, R165). -/
theorem statusWord_toNat (s : State) : (statusWord s).toNat =
    s.buflen.toNat * 2 ^ 16 + s.errLen.toNat * 2 ^ 10 + s.errSeq.toNat * 2 ^ 9 + s.errIll.toNat * 2 ^ 8
      + (dvalid s).toNat * 2 ^ 2 + (finalBit s).toNat * 2 ^ 1 + s.busy.toNat := by
  unfold statusWord
  change BitVec.toNat (w := 10 + 6 + 5 + 1 + 1 + 1 + 5 + 1 + 1 + 1) _ = _
  simp only [toNat_append_eq_add, BitVec.toNat_ofBool, BitVec.toNat_ofNat]
  omega

theorem getLsbD_eq_of_div_mod {w : Word} {i : Nat} {b : Bool} (h : w.toNat / 2 ^ i % 2 = b.toNat) : w.getLsbD i = b := by
  rw [BitVec.getLsbD, Nat.testBit_eq_decide_div_mod_eq, h]
  cases b <;> rfl

theorem extractLsb'_eq_of_div_mod {w : Word} {start len : Nat} {x : BitVec len}
    (h : w.toNat / 2 ^ start % 2 ^ len = x.toNat) : w.extractLsb' start len = x :=
  BitVec.eq_of_toNat_eq (by rw [BitVec.extractLsb'_toNat, Nat.shiftRight_eq_div_pow, h])

/-- Settles O22: each field is a quotient and a remainder of the sum `statusWord_toNat`. -/
theorem statusFields : Obligations.StatusFields := by
  intro s
  have hsum := statusWord_toNat s
  have hbuflen : s.buflen.toNat < 64 := s.buflen.isLt
  have hbusy := s.busy.toNat_le
  have hfinal := (finalBit s).toNat_le
  have hvalid := (dvalid s).toNat_le
  have hill := s.errIll.toNat_le
  have hseq := s.errSeq.toNat_le
  have hlen := s.errLen.toNat_le
  have hzero5 : (0 : BitVec 5).toNat = 0 := rfl
  have hzero10 : (0 : BitVec 10).toNat = 0 := rfl
  refine ⟨getLsbD_eq_of_div_mod ?_, getLsbD_eq_of_div_mod (b := finalBit s) ?_, getLsbD_eq_of_div_mod (b := dvalid s) ?_,
    extractLsb'_eq_of_div_mod ?_, getLsbD_eq_of_div_mod ?_, getLsbD_eq_of_div_mod ?_, getLsbD_eq_of_div_mod ?_,
    extractLsb'_eq_of_div_mod ?_, extractLsb'_eq_of_div_mod ?_, extractLsb'_eq_of_div_mod ?_⟩
  all_goals omega

/-- Settles O56: the values `State.resetWith` writes; the words read from them do not depend on the parameters, and are computed for
those of `State.reset`. -/
theorem resetValues : Obligations.ResetValues := by
  intro p
  have hstatus : statusWord State.reset = 0x00000000 := by decide
  have hlen : lenHi State.reset = 0 ∧ lenLo State.reset = 0 := by decide
  exact ⟨rfl, rfl, rfl, rfl, rfl, rfl, rfl, rfl, rfl, rfl, rfl, hstatus, hlen.1, hlen.2, rfl⟩

end Sys2Proof.Machine
end
section
/-! The engine left alone: from the track of the compression function it ends at the function's value (42_round_engine.md R122, R124
to R126). -/

namespace Sys2Proof.Machine

/-- At J = 64 the feed-forward of a track is CF of the chaining state and the latched block (R98, R104). -/
theorem EngineOnTrack.feedForward_eq_cf {s : State} (h : EngineOnTrack s) (hb : s.busy = true) (hj : s.j.val = 64) :
    feedForward s.v s.regs = cf s.v s.blk := by
  obtain ⟨hregs, -⟩ := h hb
  rw [cf, hregs, hj]

/-- With nothing pending the finish step ends the compression (R124). -/
theorem engineFinish_of_not_pend {s : State} (h : s.pend = false) :
    engineFinish s = { s with v := feedForward s.v s.regs, busy := false } := by
  simp [engineFinish, h]

/-- A compression on its track with `m` round steps to go, nothing pending, ends one step after them (R125). -/
theorem engineStep_iterate_finishes (m : Nat) (s : State) (hb : s.busy = true) (hp : s.pend = false) (ht : EngineOnTrack s)
    (hj : s.j.val + m * s.params.k.toNat = 64) :
    (engineStep^[m + 1] s).v = cf s.v s.blk ∧ (engineStep^[m + 1] s).busy = false ∧ (engineStep^[m + 1] s).pend = false := by
  induction m generalizing s with
  | zero =>
    have hj : s.j.val = 64 := by omega
    rw [Function.iterate_one, engineStep_finish hb hj, engineFinish_of_not_pend hp]
    exact ⟨ht.feedForward_eq_cf hb hj, rfl, hp⟩
  | succ m ih =>
    have hk := roundsPerStep_pos s.params.k
    rw [Nat.succ_mul] at hj
    have hround : engineStep s = engineRound s := engineStep_round hb (by omega)
    have hj' : (engineRound s).j.val = s.j.val + s.params.k.toNat := engineRound_j (by omega)
    have hrest := ih (engineRound s) (by simpa using hb) (by simpa using hp) ht.engineRound
      (by rw [hj', engineRound_params]; omega)
    rwa [engineRound_v, engineRound_blk, ← hround, ← Function.iterate_succ_apply] at hrest

/-- An idle engine stays as it is, however many turns it gets (R121). -/
theorem engineStep_iterate_idle {s : State} (h : s.busy = false) (n : Nat) : engineStep^[n] s = s :=
  Function.iterate_fixed (engineStep_idle h) n

/-- A state the engine brings to rest within its bound is the settled state (R126). -/
theorem settle_eq_iterate {s : State} {n : Nat} (hn : n ≤ 64 / s.params.k.toNat + 1) (h : (engineStep^[n] s).busy = false) :
    settle s = engineStep^[n] s := by
  have hsplit : 2 * (64 / s.params.k.toNat + 1) = (2 * (64 / s.params.k.toNat + 1) - n) + n := by omega
  rw [settle, hsplit, Function.iterate_add_apply, engineStep_iterate_idle h]

/-- The chaining state the engine is bringing about, when nothing is pending: CF of the latched block, or V itself at rest. -/
def engineResult (s : State) : HashState := if s.busy then cf s.v s.blk else s.v

/-- With nothing pending, the settled engine is idle and has brought about its result (R125, R126). -/
theorem settle_of_not_pend {s : State} (hp : s.pend = false) (ht : EngineOnTrack s) (hk : OnStride s) :
    (settle s).v = engineResult s ∧ (settle s).busy = false ∧ (settle s).pend = false := by
  cases hb : s.busy with
  | false =>
    have hs : settle s = s := engineStep_iterate_idle hb _
    rw [hs, engineResult, hb]
    exact ⟨rfl, rfl, hp⟩
  | true =>
    obtain ⟨m, hm⟩ : s.params.k.toNat ∣ 64 - s.j.val := Nat.dvd_sub (roundsPerStep_dvd _) (hk hb)
    have hj : s.j.val + m * s.params.k.toNat = 64 := by rw [Nat.mul_comm]; omega
    have hle : m ≤ 64 / s.params.k.toNat := (Nat.le_div_iff_mul_le (roundsPerStep_pos _)).mpr (by omega)
    obtain ⟨hv, hidle, hpend⟩ := engineStep_iterate_finishes m s hb hp ht hj
    rw [settle_eq_iterate (by omega) hidle, engineResult, hb]
    exact ⟨hv, hidle, hpend⟩

@[simp] theorem settle_len (s : State) : (settle s).len = s.len := iterate_keeps (g := State.len) engineStep_len _ s
@[simp] theorem settle_buf (s : State) : (settle s).buf = s.buf := iterate_keeps (g := State.buf) engineStep_buf _ s
@[simp] theorem settle_buflen (s : State) : (settle s).buflen = s.buflen := iterate_keeps (g := State.buflen) engineStep_buflen _ s
@[simp] theorem settle_phase (s : State) : (settle s).phase = s.phase := iterate_keeps (g := State.phase) engineStep_phase _ s

end Sys2Proof.Machine
end
section
/-! A message and its whole blocks when one byte is appended (44_finalizer.md R154). -/

namespace Sys2Proof.Machine

/-- What is left of a message after its whole blocks. -/
def messageRest (m : List Byte) : List Byte := m.drop (64 * (m.length / 64))

theorem messageRest_length (m : List Byte) : (messageRest m).length = m.length % 64 := by
  rw [messageRest, List.length_drop]
  omega

/-- A block depends on its first 64 bytes only. -/
theorem blockOf_append {b : List Byte} (hb : 64 ≤ b.length) (c : List Byte) : blockOf (b ++ c) = blockOf b := by
  refine Vector.ext fun i hi => ?_
  simp only [blockOf, Vector.getElem_ofFn]
  exact List.getD_append _ _ _ _ (by omega)

/-- The whole blocks of a message stay the first ones when bytes are appended. -/
theorem map_blockOf_drop_append (m c : List Byte) :
    ((List.range (m.length / 64)).map fun i => blockOf ((m ++ c).drop (64 * i))) = messageBlocks m := by
  refine List.map_congr_left fun i hi => ?_
  have hi : i < m.length / 64 := List.mem_range.mp hi
  rw [List.drop_append_of_le_length (by omega), blockOf_append (by rw [List.length_drop]; omega)]

/-- A byte that fills no block adds to the rest. -/
theorem messageBlocks_concat_of_lt {m : List Byte} (x : Byte) (h : m.length % 64 < 63) :
    messageBlocks (m ++ [x]) = messageBlocks m ∧ messageRest (m ++ [x]) = messageRest m ++ [x] := by
  have hcount : (m ++ [x]).length / 64 = m.length / 64 := by rw [List.length_append, List.length_singleton]; omega
  constructor
  · rw [messageBlocks, hcount, map_blockOf_drop_append]
  · rw [messageRest, messageRest, hcount, List.drop_append_of_le_length (by omega)]

/-- A byte that fills a block makes the rest the next block. -/
theorem messageBlocks_concat_of_eq {m : List Byte} (x : Byte) (h : m.length % 64 = 63) :
    messageBlocks (m ++ [x]) = messageBlocks m ++ [blockOf (messageRest m ++ [x])] ∧ messageRest (m ++ [x]) = [] := by
  have hcount : (m ++ [x]).length / 64 = m.length / 64 + 1 := by rw [List.length_append, List.length_singleton]; omega
  constructor
  · rw [messageBlocks, hcount, List.range_succ, List.map_append, map_blockOf_drop_append, List.map_singleton,
      List.drop_append_of_le_length (by omega), ← messageRest]
  · rw [← List.length_eq_zero_iff, messageRest_length, List.length_append, List.length_singleton]
    omega

end Sys2Proof.Machine
end
section
/-! PUSH and the message absorbed so far (10_state.md R21 to R24, 43_streaming_buffer.md R141). -/

namespace Sys2Proof.Machine

/-- The block, in phase ACTIVE with nothing pending, has taken the bytes `m` in: once the engine is done, V is CF over their whole
blocks, and the remainder holds the rest. The engine may still be at work on the last of these blocks. -/
structure Absorbing (s : State) (m : List Byte) : Prop where
  not_pend : s.pend = false
  active : s.phase = .active
  result : engineResult s = (messageBlocks m).foldl cf iv
  buflen : s.buflen.toNat = m.length % 64
  remainder : s.stream.remainder = messageRest m
  on_track : EngineOnTrack s
  on_stride : OnStride s

/-- A state that has absorbed a message is one that has taken it in, with LEN counting its bits and the engine at rest. -/
theorem absorbed_iff {s : State} {m : List Byte} :
    Absorbed s m ↔ Absorbing s m ∧ s.busy = false ∧ s.len.toNat = 8 * m.length := by
  constructor
  · rintro ⟨hb, hp, ha, hv, hl, hbl, hr⟩
    refine ⟨⟨hp, ha, ?_, hbl, hr, engineOnTrack_of_idle hb, fun hbusy => by simp [hb] at hbusy⟩, hb, hl⟩
    simpa [engineResult, hb] using hv
  · rintro ⟨⟨hp, ha, hv, hbl, hr, -, -⟩, hb, hl⟩
    exact ⟨hb, hp, ha, by simpa [engineResult, hb] using hv, hl, hbl, hr⟩

/-- LEN and the bus answers stand apart from the bytes taken in. -/
theorem Absorbing.withLenResponses {s : State} {m : List Byte} (h : Absorbing s m) (n : Length) (rs : List Response) :
    Absorbing { s with len := n, responses := rs } m where
  not_pend := h.not_pend
  active := h.active
  result := h.result
  buflen := h.buflen
  remainder := h.remainder
  on_track := h.on_track
  on_stride := h.on_stride

theorem Absorbing.respond {s : State} {m : List Byte} (h : Absorbing s m) (r : Response) : Absorbing (respond r s) m :=
  h.withLenResponses s.len (s.responses ++ [r])

/-- Once the engine is done, the bytes taken in are absorbed (R126). -/
theorem Absorbing.absorbed_settle {s : State} {m : List Byte} (h : Absorbing s m) (hl : s.len.toNat = 8 * m.length) :
    Absorbed (settle s) m := by
  obtain ⟨hv, hb, hp⟩ := settle_of_not_pend h.not_pend h.on_track h.on_stride
  refine ⟨hb, hp, by rw [settle_phase, h.active], by rw [hv, h.result], by rw [settle_len, hl],
    by rw [settle_buflen, h.buflen], ?_⟩
  have hrem : (settle s).stream.remainder = s.stream.remainder := by simp [Stream.remainder, State.stream]
  rw [hrem, h.remainder, messageRest]

/-- The byte written to BUF[BUFLEN] follows the remainder. -/
theorem take_set_succ (b : Block) (r : Nat) (hr : r < 64) (x : Byte) :
    (b.set r x).toList.take (r + 1) = b.toList.take r ++ [x] := by
  rw [Vector.toList_set, List.take_add_one]
  simp [hr, List.take_set_of_le]

/-- A full buffer is the block of its bytes. -/
theorem blockOf_toList (b : Block) : blockOf b.toList = b := by
  refine Vector.ext fun i hi => ?_
  simp [blockOf]

/-- One byte pushed is one byte taken in, if a busy engine is not asked for a second block (R141 step 4). -/
theorem Absorbing.pushByte {s : State} {m : List Byte} (h : Absorbing s m)
    (hroom : s.busy = true → s.buflen.toNat < 63) (x : Byte) : Absorbing (pushByte s x) (m ++ [x]) := by
  have hlen : (m ++ [x]).length = m.length + 1 := by simp
  have hbl := h.buflen
  have hrest : s.buf.toList.take s.buflen.toNat = messageRest m := h.remainder
  have htake := take_set_succ s.buf s.buflen.toNat s.buflen.isLt x
  have htrack := h.on_track.pushByte x
  have hstride := OnStride.pushByte h.on_stride x
  rcases pushByte_cases s x with ⟨hlt, he⟩ | ⟨hlast, he⟩
  · obtain ⟨hblocks, hrest'⟩ := messageBlocks_concat_of_lt x (m := m) (by omega)
    have hbuflen : (s.buflen + 1).toNat = s.buflen.toNat + 1 := by
      rw [BitVec.toNat_add]
      exact Nat.mod_eq_of_lt (by show s.buflen.toNat + 1 < 64; omega)
    rw [he] at htrack hstride ⊢
    refine ⟨h.not_pend, h.active, by rw [hblocks]; exact h.result, ?_, ?_, htrack, hstride⟩
    · show (s.buflen + 1).toNat = _
      omega
    · show (s.buf.set s.buflen.toNat x).toList.take (s.buflen + 1).toNat = _
      rw [hbuflen, htake, hrest, hrest']
  · obtain ⟨hblocks, hrest'⟩ := messageBlocks_concat_of_eq x (m := m) (by omega)
    have hidle : s.busy = false := by
      by_contra hb
      have := hroom (by simpa using hb)
      omega
    have hv : s.v = (messageBlocks m).foldl cf iv := by simpa [engineResult, hidle] using h.result
    have hblock : s.buf.set s.buflen.toNat x = blockOf (messageRest m ++ [x]) := by
      rw [← hrest, ← htake, List.take_of_length_le (by simp [hlast]), blockOf_toList]
    rw [he] at htrack hstride ⊢
    refine ⟨h.not_pend, h.active, ?_, ?_, ?_, htrack, hstride⟩
    · rw [hblocks, List.foldl_concat, ← hv, ← hblock]
      rfl
    · show (0 : BitVec 6).toNat = _
      rw [hlen]
      have : (0 : BitVec 6).toNat = 0 := rfl
      omega
    · rw [hrest']
      rfl

/-- Bytes pushed one after another are taken in, if at most one block fills on the way. -/
theorem Absorbing.bytewise {m : List Byte} (l : List Byte) {s : State} (h : Absorbing s m) (hl : l.length < 64)
    (hroom : s.busy = true → s.buflen.toNat + l.length < 64) : Absorbing (l.foldl Machine.pushByte s) (m ++ l) := by
  induction l generalizing s m with
  | nil => simpa using h
  | cons x l ih =>
    simp only [List.length_cons] at hl hroom
    rw [List.foldl_cons, ← List.singleton_append, ← List.append_assoc]
    refine ih (h.pushByte (fun hb => by have := hroom hb; omega) x) (by omega) fun hb => ?_
    rw [pushByte_buflen]
    rcases pushByte_cases s x with ⟨hlt, he⟩ | ⟨hlast, he⟩
    · have : s.buflen.toNat + (l.length + 1) < 64 := hroom (by rwa [he] at hb)
      omega
    · omega

/-- The bytes of a PUSH into an idle block are taken in (R58, R141): with at most four of them, at most one block fills. -/
theorem Absorbing.pushBytes {s : State} {m : List Byte} (h : Absorbing s m) (hb : s.busy = false) (n : Fin 5) :
    Absorbing (pushBytes n.val s) (m ++ dinBytes s.din n.val) :=
  (h.withLenResponses _ s.responses).bytewise _ (by rw [dinBytes_length]; omega) fun hbusy => by simp [hb] at hbusy

/-- The step of an accepted PUSH within the limit. -/
theorem exec_pushInstr_of_idle {s : State} {n : Fin 5} (hb : s.busy = false) (hp : s.phase = .active)
    (hl : s.len.toNat + 8 * n.val ≤ 2 ^ 64 - 1) : exec (pushInstr n) s = .next (respond .written (pushBytes n.val s)) := by
  have heffect : acceptPush n s = pushBytes n.val s := by
    rw [acceptPush, if_neg (by simp [hp]), if_pos (lenOK_iff.mpr hl)]
  have hcmd : cmdEffect (pushInstr n) = some (performCommand (.push n)) := cmdEffect_of_command (.inl rfl)
  rw [exec_cmd hcmd, offerCommand_idle hb, performCommand, heffect]

/-- Settles O48: the bytes are taken in one by one, LEN counts them, and the settled engine has absorbed them. -/
theorem pushAbsorbsDinBytes : Obligations.PushAbsorbsDinBytes := by
  intro n s m h hlimit
  obtain ⟨hm, hb, hl⟩ := absorbed_iff.mp h
  have hok : s.len.toNat + 8 * n.val ≤ 2 ^ 64 - 1 := by omega
  refine ⟨_, exec_pushInstr_of_idle hb hm.active hok, ((hm.pushBytes hb n).respond _).absorbed_settle ?_⟩
  rw [respond_len, pushBytes_len_toNat hok, List.length_append, dinBytes_length]
  omega

end Sys2Proof.Machine
end
section
/-! Bytes and words, most significant first (20_memory.md R55, R57, R58). -/

namespace Sys2Proof.Machine

/-- The four bytes of a word put together again are the word (R11, R58). -/
theorem be32_wordByte (w : Word) : be32 (wordByte w 0) (wordByte w 1) (wordByte w 2) (wordByte w 3) = w := by
  have hhigh : wordByte w 0 ++ wordByte w 1 = w.extractLsb' 16 16 := BitVec.extractLsb'_append_extractLsb'_eq_extractLsb' rfl
  have hthree : w.extractLsb' 16 16 ++ wordByte w 2 = w.extractLsb' 8 24 :=
    BitVec.extractLsb'_append_extractLsb'_eq_extractLsb' rfl
  have hall : w.extractLsb' 8 24 ++ wordByte w 3 = w.extractLsb' 0 32 :=
    BitVec.extractLsb'_append_extractLsb'_eq_extractLsb' rfl
  rw [be32, hhigh, hthree, hall]
  exact BitVec.extractLsb'_eq_self

theorem bytes32_length (w : Word) : (bytes32 w).length = 4 := rfl

theorem bytes32_getElem? (w : Word) : ∀ k : Fin 4, (bytes32 w)[k.val]? = some (wordByte w k.val)
  | 0 | 1 | 2 | 3 => rfl

/-- A PUSH of four bytes takes all of DIN (R58). -/
theorem dinBytes_four (w : Word) : dinBytes w 4 = bytes32 w := rfl

/-- In the bytes of a list of words, byte k of word i is at index 4·i + k (R55, R57). -/
theorem getElem?_flatMap_bytes32 (l : List Word) (i : Nat) (k : Fin 4) :
    (l.flatMap bytes32)[4 * i + k.val]? = l[i]?.map fun w => wordByte w k.val := by
  induction l generalizing i with
  | nil => rfl
  | cons w l ih =>
    rw [List.flatMap_cons]
    cases i with
    | zero =>
      rw [List.getElem?_append_left (by rw [bytes32_length]; omega), Nat.mul_zero, Nat.zero_add, bytes32_getElem?]
      rfl
    | succ i =>
      rw [List.getElem?_append_right (by rw [bytes32_length]; omega), bytes32_length, List.getElem?_cons_succ, ← ih i]
      congr 1
      omega

/-- Settles O26: the digest is the bytes of V's eight words. -/
theorem digestByteOrder : Obligations.DigestByteOrder := by
  intro v
  refine ⟨by simp [digestBytes, List.length_flatMap, bytes32_length], fun i k => ?_⟩
  rw [digestBytes, getElem?_flatMap_bytes32]
  simp [wordByte]

/-- A block made of sixteen words' bytes has byte k of word i at index 4·i + k (R55). -/
theorem blockOf_bytes32_getElem (m : Window) (i : Fin 16) (k : Fin 4) :
    (blockOf (m.toList.flatMap bytes32))[4 * i.val + k.val] = wordByte m[i] k.val := by
  rw [blockOf, Vector.getElem_ofFn, List.getD_eq_getElem?_getD, getElem?_flatMap_bytes32]
  simp

/-- Settles O36: word i of the block is made of the four bytes of word i of the window. -/
theorem pushedWordIsBlockWord : Obligations.PushedWordIsBlockWord := by
  refine ⟨be32_wordByte, fun m => Vector.ext fun i hi => ?_⟩
  have hbyte := blockOf_bytes32_getElem m ⟨i, hi⟩
  simp only [words, Vector.getElem_ofFn, dinBytes_four]
  exact (congr (congr (congrArg₂ be32 (hbyte 0) (hbyte 1)) (hbyte 2)) (hbyte 3)).trans (be32_wordByte m[i])

end Sys2Proof.Machine
end
section
/-! The accesses of the host: a decoded one runs its instruction, and one the bus check rejects gets the bus error
(20_memory.md R50, R53, R60; 60_exceptions.md R184). -/

namespace Sys2Proof

/-- The cases in which R53 answers an access with a bus error. -/
def BusAccess.Rejected (a : BusAccess) : Prop :=
  a.width ≠ 32 ∨ a.off.toNat % 4 ≠ 0 ∨ a.off ∈ [0x0C#6, 0x18#6, 0x1C#6] ∨
    (a.dir = .write ∧ (a.off ∈ [0x08#6, 0x10#6, 0x14#6] ∨ 0x20 ≤ a.off.toNat)) ∨
    (a.dir = .read ∧ a.off = 0x00#6)

/-- An offset is word-aligned when its two low bits are 00 (R53). -/
theorem extractLsb'_two_eq_zero_iff (o : BitVec 6) : o.extractLsb' 0 2 = 0#2 ↔ o.toNat % 4 = 0 := by
  simp [← BitVec.toNat_inj, BitVec.extractLsb'_toNat]

/-- A check that reports `e` in case `c` passes when `c` does not hold and the checks after it pass. -/
theorem ite_some_eq_none_iff {c : Prop} [Decidable c] {e : DecodeError} {x : Option DecodeError} :
    (if c then some e else x) = none ↔ ¬ c ∧ x = none := by
  by_cases h : c <;> simp [h]

/-- The bus check passes exactly the accesses outside the cases of R53. -/
theorem busCheck_eq_none_iff_not_rejected (a : BusAccess) : busCheck a = none ↔ ¬ a.Rejected := by
  have hle : (0x20#6 ≤ a.off) ↔ 0x20 ≤ a.off.toNat := BitVec.le_def
  simp only [busCheck, ite_some_eq_none_iff, BusAccess.Rejected, not_or, and_true, ne_eq, extractLsb'_two_eq_zero_iff, hle,
    List.mem_cons, List.not_mem_nil, or_false, or_assoc, and_assoc]

/-- A bus operation decodes to an instruction when it passes the bus check and its code is that instruction's (R53, R71). -/
theorem decode_bus_eq_ok_iff {a : BusAccess} {i : Instr} :
    decode (.bus a) = .ok i ↔ busCheck a = none ∧ decodeBusCode a = some i := by
  rw [decode]
  cases busCheck a with
  | some e => simp
  | none => cases decodeBusCode a <;> simp

/-- A bus operation that the bus check stops is not decoded further (R186). -/
theorem decode_bus_of_busCheck_some {a : BusAccess} {e : DecodeError} (h : busCheck a = some e) : decode (.bus a) = .error e := by
  rw [decode, h]

end Sys2Proof

namespace Sys2Proof.Machine

section Presented

variable {s : State} {r : Request} {rest : List Event} {op : HostOp}

/-- A decoded access at the head of the events is the next instruction. -/
theorem nextInstr_of_decode {i : Instr} (hi : s.inputs = .host r :: rest) (hp : presentedOp s.params r = some op)
    (hd : decode op = .ok i) : nextInstr s = some i := by
  simp [nextInstr, hi, hp, hd]

/-- An operation that the decoder rejects is answered by `rejectOp` (R181, R184). -/
theorem step_of_decode_error {e : DecodeError} (hi : s.inputs = .host r :: rest)
    (hp : presentedOp s.params r = some op) (hd : decode op = .error e) :
    step s = .next (rejectOp op { s with inputs := rest }) := by
  simp [step, hi, runRequest, hp, hd]

end Presented

/-- Settles O8: such an event is the next instruction, and `step_of_nextInstr` runs it. -/
theorem stepRunsDecodedInstruction : Obligations.StepRunsDecodedInstruction := by
  intro s r rest op i hi hp hd
  rw [step_of_nextInstr (nextInstr_of_decode hi hp hd), hi, List.tail_cons]

/-- Settles O10: the bus check stops a rejected access before the decoder, and every other access has a defined code. -/
theorem busErrorChangesNothing : Obligations.BusErrorChangesNothing := by
  intro s a rest hi
  have hp : presentedOp s.params (.access (s.params.base + a.off.toNat) a.dir a.width a.data) = some (.bus a) :=
    presentedOp_requestOf s.params (.bus a)
  refine ⟨fun hrej => ?_, fun hok => ?_⟩
  · have hne : busCheck a ≠ none := fun h => (busCheck_eq_none_iff_not_rejected a).mp h hrej
    obtain ⟨e, he⟩ := Option.ne_none_iff_exists'.mp hne
    exact step_of_decode_error hi hp (decode_bus_of_busCheck_some he)
  · have hc : busCheck a = none := (busCheck_eq_none_iff_not_rejected a).mpr hok
    obtain ⟨i, hcode⟩ := Option.isSome_iff_exists.mp (decodeBusCode_of_busCheck hc)
    have hd : decode (.bus a) = .ok i := decode_bus_eq_ok_iff.mpr ⟨hc, hcode⟩
    exact ⟨i, hd, stepRunsDecodedInstruction s _ rest _ i hi hp hd⟩

end Sys2Proof.Machine
end
section
/-! The host's side of the state, the parameters and the events to come: what a step does to it (00_scope.md R8, 20_memory.md R60,
70_reset_and_hazards.md R201). -/

namespace Sys2Proof.Machine

@[simp] theorem startFinal_params (s : State) : (startFinal s).params = s.params := by unfold startFinal; split <;> rfl
@[simp] theorem startFinal_inputs (s : State) : (startFinal s).inputs = s.inputs := by unfold startFinal; split <;> rfl

/-- `t` has the parameters and the events to come of `s`. -/
def SameHostSide (s t : State) : Prop := t.params = s.params ∧ t.inputs = s.inputs

/-- The effect of a command does not reach the host's side. -/
theorem CommandEffect.sameHostSide {s t : State} {c : Command} (h : CommandEffect s c t) : SameHostSide s t := by
  cases h with
  | nop => exact ⟨rfl, rfl⟩
  | init => exact ⟨rfl, rfl⟩
  | rejected _ r => exact ⟨raise_params r s, raise_inputs r s⟩
  | pushed n => exact ⟨pushBytes_params n.val s, pushBytes_inputs n.val s⟩
  | finalized => exact ⟨startFinal_params s, startFinal_inputs s⟩

/-- Nor does the effect of any accepted CMD write. -/
theorem sameHostSide_of_cmdEffect {i : Instr} {f : State → State} (h : cmdEffect i = some f) (s : State) :
    SameHostSide s (f s) := by
  rcases cmdEffect_cases h with ⟨c, -, rfl⟩ | ⟨w, -, -, rfl⟩
  · exact (commandEffect_performCommand c s).sameHostSide
  · exact ⟨raise_params _ s, raise_inputs _ s⟩

/-- An instruction leaves the host's side as it is, unless it is a CMD write that BUSY holds (R201). -/
theorem exec_held_or_sameHostSide {i : Instr} {s t : State} (h : exec i s = .next t) :
    (s.busy = true ∧ ∃ f, cmdEffect i = some f) ∨ SameHostSide s t := by
  rcases exec_cases h with ⟨f, hf, hb, -⟩ | ⟨f, hf, -, rfl⟩ | ⟨v, -, rfl⟩ | ⟨x, d, -, -, rfl⟩
  · exact .inl ⟨hb, f, hf⟩
  · exact .inr (sameHostSide_of_cmdEffect hf s)
  · exact .inr ⟨rfl, rfl⟩
  · exact .inr ⟨rfl, rfl⟩

/-- A rejected operation leaves the host's side as it is, unless it is a command word that BUSY holds (R184, R201). -/
theorem rejectOp_held_or_sameHostSide (op : HostOp) (s : State) :
    (s.busy = true ∧ ∃ w, op = .cmd w) ∨ SameHostSide s (rejectOp op s) := by
  cases op with
  | bus a => exact .inr ⟨rfl, rfl⟩
  | cmd w =>
    by_cases hb : s.busy = true
    · exact .inl ⟨hb, w, rfl⟩
    · rw [rejectOp, offerCommand_idle (by simpa using hb)]
      exact .inr ⟨rfl, rfl⟩

/-- The only CMD write among the bus operations is the write of the register CMD (R71). -/
theorem eq_wrCmd_of_decode_bus {a : BusAccess} {i : Instr} {f : State → State} (hd : decode (.bus a) = .ok i)
    (hf : cmdEffect i = some f) : i = .wrCmd a.data := by
  obtain ⟨-, hcode⟩ := decode_bus_eq_ok_iff.mp hd
  unfold decodeBusCode at hcode
  split_ifs at hcode <;> cases hcode
  · rfl
  all_goals cases hf

/-- Only a command request presents a command word (R79). -/
theorem eq_command_of_presentedOp {p : Params} {r : Request} {w : Word} (h : presentedOp p r = some (.cmd w)) :
    r = .command w := by
  cases r with
  | command v => simpa [presentedOp] using h
  | access addr dir width data => simp [presentedOp] at h

/-- A command word that comes next while BUSY = 1 is held, legal or not (R201). -/
theorem heldNext_of_command {s : State} {r : Request} {rest : List Event} {w : Word} (hb : s.busy = true)
    (hi : s.inputs = .host r :: rest) (hp : presentedOp s.params r = some (.cmd w)) : HeldNext s :=
  ⟨hb, .inl ⟨w, by rw [hi, eq_command_of_presentedOp hp]; rfl⟩⟩

/-- A CMD write that comes next while BUSY = 1 is held, in either format (R201). -/
theorem heldNext_of_cmdEffect {s : State} {r : Request} {rest : List Event} {op : HostOp} {i : Instr} {f : State → State}
    (hb : s.busy = true) (hi : s.inputs = .host r :: rest) (hp : presentedOp s.params r = some op) (hd : decode op = .ok i)
    (hf : cmdEffect i = some f) : HeldNext s := by
  cases op with
  | cmd w => exact heldNext_of_command hb hi hp
  | bus a =>
    obtain rfl := eq_wrCmd_of_decode_bus hd hf
    exact ⟨hb, .inr ⟨a.data, nextInstr_of_decode hi hp hd⟩⟩

/-- A step keeps the parameters and takes the first event, unless BUSY holds it (R8, R60, R201). -/
theorem heldNext_or_takes_of_step {s t : State} (h : step s = .next t) :
    HeldNext s ∨ SameHostSide { s with inputs := s.inputs.tail } t := by
  rcases step_cases h with ⟨hi, rfl⟩ | ⟨rest, hi, rfl⟩ | ⟨rest, hi, rfl⟩ | ⟨r, rest, hi, hr⟩
  · exact .inr ⟨engineStep_params s, by rw [engineStep_inputs]; simp [hi]⟩
  · exact .inr ⟨engineStep_params _, by rw [engineStep_inputs, hi]; rfl⟩
  · exact .inr ⟨rfl, by rw [resetMachine_inputs, hi]; rfl⟩
  · rw [hi, List.tail_cons]
    rcases runRequest_cases hr with ⟨-, rfl⟩ | ⟨op, e, hp, -, rfl⟩ | ⟨op, i, hp, hd, hx⟩
    · exact .inr ⟨rfl, rfl⟩
    · refine (rejectOp_held_or_sameHostSide op _).imp_left ?_
      rintro ⟨hb, w, rfl⟩
      exact heldNext_of_command hb hi hp
    · exact (exec_held_or_sameHostSide hx).imp_left fun ⟨hb, _, hf⟩ => heldNext_of_cmdEffect hb hi hp hd hf

/-- Settles O12: a held event is left by the engine's step, and every other step takes the first event. -/
theorem stepTakesEventsInOrder : Obligations.StepTakesEventsInOrder := by
  intro s t h
  by_cases hheld : HeldNext s
  · rw [step_of_heldNext hheld] at h
    cases h
    exact ⟨engineStep_params s, fun _ => engineStep_inputs s, fun hn => absurd hheld hn⟩
  · obtain ⟨hparams, hinputs⟩ := (heldNext_or_takes_of_step h).resolve_left hheld
    exact ⟨hparams, fun hn => absurd hn hheld, fun _ => hinputs⟩

end Sys2Proof.Machine
end
section
/-! Encoding and decoding (30_encoding.md R70 to R77): the encoder and the decoder are inverse up to the DATA of a read, and the rules
about command words, bus codes and opcode-table words that follow. -/

namespace Sys2Proof

/-! Command words (R72 to R77). -/

/-- The commands: PUSH of 0 to 4 bytes and the three without an operand (R73). -/
theorem Command.exists_iff {p : Command → Prop} :
    (∃ c, p c) ↔ p .nop ∨ p .init ∨ p (.push 0) ∨ p (.push 1) ∨ p (.push 2) ∨ p (.push 3) ∨ p (.push 4) ∨ p .finalize := by
  constructor
  · rintro ⟨c, hc⟩
    cases c with
    | push n => match n with | 0 | 1 | 2 | 3 | 4 => simp [hc]
    | _ => simp [hc]
  · rintro (h | h | h | h | h | h | h | h) <;> exact ⟨_, h⟩

/-- A command word decodes to the instruction of the command whose word it is (R75, R77). -/
theorem decode_cmd_eq_ok_iff {w : Word} {i : Instr} : decode (.cmd w) = .ok i ↔ ∃ c : Command, w = c.word ∧ i = c.toInstr := by
  constructor
  · intro h
    rw [decode] at h
    cases hc : decodeCmd w with
    | none => simp [hc] at h
    | some c => exact ⟨c, Machine.decodeCmd_eq_word hc, by simpa [hc, eq_comm] using h⟩
  · rintro ⟨c, rfl, rfl⟩
    rw [decode, Machine.decodeCmd_word]

/-- Settles O2: the decodable words are the words of the commands, of which there are eight. -/
theorem legalCommandWordsExactlyEight : Obligations.LegalCommandWordsExactlyEight :=
  fun _ _ => decode_cmd_eq_ok_iff.trans Command.exists_iff

theorem toNat_cmdRsv (w : Word) : (cmdRsv w).toNat = w.toNat / 128 := by
  have := w.isLt
  rw [cmdRsv, BitVec.extractLsb'_toNat, Nat.shiftRight_eq_div_pow]
  omega

theorem toNat_cmdOp (w : Word) : (cmdOp w).toNat = w.toNat % 16 := by
  rw [cmdOp, BitVec.extractLsb'_toNat, Nat.shiftRight_zero]

theorem toNat_cmdN (w : Word) : (cmdN w).toNat = w.toNat / 16 % 8 := by
  rw [cmdN, BitVec.extractLsb'_toNat, Nat.shiftRight_eq_div_pow]

/-- The illegal command words (R76), by the branches of `DecodeCmd` with its fields read as numbers. -/
theorem decodeCmd_eq_none_iff (w : Word) : decodeCmd w = none ↔
    (w.toNat / 128 ≠ 0 ∨ 4 ≤ w.toNat % 16 ∨ (w.toNat % 16 = 2 ∧ 5 ≤ w.toNat / 16 % 8) ∨
      (w.toNat % 16 ≠ 2 ∧ w.toNat / 16 % 8 ≠ 0)) := by
  simp only [decodeCmd, ← BitVec.toNat_inj, ne_eq, toNat_cmdRsv, toNat_cmdOp, toNat_cmdN, BitVec.ofNat_eq_ofNat,
    BitVec.toNat_ofNat]
  split_ifs <;> simp only [true_iff, false_iff] <;> omega

/-! Bus operations (R70, R71). -/

/-- The bus operation code determines the direction and the offset, and depends on nothing else (R70). -/
theorem BusAccess.bop_eq_iff {a b : BusAccess} : a.bop = b.bop ↔ a.dir = b.dir ∧ a.off = b.off := by
  obtain ⟨d, o, -, -⟩ := a
  obtain ⟨d', o', -, -⟩ := b
  have ho := o.isLt
  have ho' := o'.isLt
  cases d <;> cases d' <;> simp [bop, ← BitVec.toNat_inj] <;> omega

/-- An access is `b`, with the DATA of a read set aside, when it has the code of `b`, its width, and its DATA if it is a write. -/
theorem canonical_eq_bus {a b : BusAccess} (hbop : a.bop = b.bop) (hwidth : a.width = b.width)
    (hdata : b.data = match b.dir with | .write => a.data | .read => 0) : (HostOp.bus a).canonical = .bus b := by
  obtain ⟨d, o, w, v⟩ := a
  obtain ⟨d', o', w', v'⟩ := b
  obtain ⟨rfl, rfl⟩ := BusAccess.bop_eq_iff.mp hbop
  obtain rfl : w = w' := hwidth
  cases d <;> cases hdata <;> rfl

/-- Setting the DATA of a read aside keeps the code (R70). -/
theorem bop_eq_of_canonical {a b : BusAccess} (h : (HostOp.bus a).canonical = .bus b) : a.bop = b.bop := by
  obtain ⟨d, o, w, v⟩ := a
  cases d <;> cases h <;> rfl

/-- The code of a DIGEST read is that of the register its offset selects (R71). -/
theorem bop_of_digest_code {a : BusAccess} (h : a.bop &&& 0x63#7 = 0x20#7) :
    a.bop = BusAccess.bop ⟨.read, 0x20 + BitVec.ofNat 6 (4 * (digestIndex a.off).val), 32, 0⟩ := by
  obtain ⟨d, o, w, v⟩ := a
  cases d <;> simp only [BusAccess.bop] at h ⊢ <;> revert o <;> decide

/-- `0x20 + 4·i` is the code of the read of DIGESTi (R71). -/
theorem digest_code (i : Fin 8) :
    BitVec.ofNat 7 (0x20 + 4 * i.val) = BusAccess.bop ⟨.read, 0x20 + BitVec.ofNat 6 (4 * i.val), 32, 0⟩ := by
  revert i
  decide

/-- The code's decoding does not look at the DATA of a read (R70). -/
theorem decodeBusCode_read (o : BitVec 6) (width : Nat) (v : Word) :
    decodeBusCode ⟨.read, o, width, v⟩ = decodeBusCode ⟨.read, o, width, 0⟩ := by
  have hne (x : Word) (o' : BitVec 6) : BusAccess.bop ⟨.read, o, width, x⟩ ≠ BusAccess.bop ⟨.write, o', 32, 0⟩ := fun h =>
    nomatch (BusAccess.bop_eq_iff.mp h).1
  have hcmd (x : Word) : BusAccess.bop ⟨.read, o, width, x⟩ ≠ 0x40#7 := hne x 0x00
  have hdin (x : Word) : BusAccess.bop ⟨.read, o, width, x⟩ ≠ 0x44#7 := hne x 0x04
  simp only [decodeBusCode, hcmd, hdin, if_false]
  rfl

/-- Nor does the whole decoder (R70). -/
theorem decode_canonical (op : HostOp) : decode op.canonical = decode op := by
  cases op with
  | cmd w => rfl
  | bus a =>
    obtain ⟨d, o, width, v⟩ := a
    cases d with
    | write => rfl
    | read =>
      show decode (.bus ⟨.read, o, width, 0⟩) = decode (.bus ⟨.read, o, width, v⟩)
      rw [decode, decode, decodeBusCode_read o width v]
      rfl

/-! Both formats together. -/

/-- An encoding passes the bus check, or is a legal word, and gives its instruction back (R71, R75). -/
theorem decode_encode (i : Instr) : decode (encode i) = .ok i := by
  cases i with
  | rdDigest k => revert k; decide
  | wrDin v => exact decode_bus_eq_ok_iff.mpr ⟨(by decide : busCheck ⟨.write, 0x04, 32, 0⟩ = none), rfl⟩
  | _ => rfl

/-- The code of a decoded access is the code of the instruction's encoding (R71), branch by branch. -/
theorem canonical_of_decodeBusCode {a : BusAccess} {i : Instr} (hw : a.width = 32) (h : decodeBusCode a = some i) :
    (HostOp.bus a).canonical = encode i := by
  unfold decodeBusCode at h
  split_ifs at h with hc hc hc hc hc hc hc <;> cases h
  on_goal 7 => exact canonical_eq_bus (bop_of_digest_code hc) hw rfl
  all_goals exact canonical_eq_bus hc hw rfl

/-- An operation that decodes to an instruction is its encoding, in the command format by R75 and in the bus format by R71. -/
theorem canonical_of_decode {op : HostOp} {i : Instr} (h : decode op = .ok i) : op.canonical = encode i := by
  cases op with
  | cmd w =>
    obtain ⟨c, rfl, rfl⟩ := decode_cmd_eq_ok_iff.mp h
    exact (Machine.encode_toInstr c).symm
  | bus a =>
    obtain ⟨hcheck, hcode⟩ := decode_bus_eq_ok_iff.mp h
    have hw : a.width = 32 := by
      by_contra hn
      exact (busCheck_eq_none_iff_not_rejected a).mp hcheck (.inl hn)
    exact canonical_of_decodeBusCode hw hcode

/-- Settles O5: a decoded operation is the encoding, and decoding an encoding gives the instruction back. -/
theorem decodeIffCanonicalEncoding : Obligations.DecodeIffCanonicalEncoding := by
  intro op i
  refine ⟨canonical_of_decode, fun h => ?_⟩
  rw [← decode_canonical, h, decode_encode]

/-- An access with the code and the DATA of an instruction's encoding decodes to it (R71). -/
theorem decode_of_bop_eq {a b : BusAccess} {i : Instr} (hi : encode i = .bus b) (hbop : a.bop = b.bop) (hwidth : a.width = b.width)
    (hdata : b.data = match b.dir with | .write => a.data | .read => 0) : decode (.bus a) = .ok i :=
  (decodeIffCanonicalEncoding _ _).mpr ((canonical_eq_bus hbop hwidth hdata).trans hi.symm)

/-- The codes of the encodings are the defined ones of R71. -/
theorem bop_mem_of_encode_eq {b : BusAccess} {i : Instr} (h : encode i = .bus b) :
    b.bop ∈ [0x40#7, 0x44#7, 0x04#7, 0x08#7, 0x10#7, 0x14#7, 0x20#7, 0x24#7, 0x28#7, 0x2C#7, 0x30#7, 0x34#7, 0x38#7, 0x3C#7] := by
  cases i with
  | rdDigest k => cases h; revert k; decide
  | _ => cases h <;> simp [BusAccess.bop]

/-- Settles O4: an access with a defined code is the encoding of its instruction, and an access that decodes has a defined code. -/
theorem busOperationCodes : Obligations.BusOperationCodes := by
  intro a hw
  refine ⟨fun h => decode_of_bop_eq rfl h hw rfl, fun h => decode_of_bop_eq rfl h hw rfl, fun h => decode_of_bop_eq rfl h hw rfl,
    fun h => decode_of_bop_eq rfl h hw rfl, fun h => decode_of_bop_eq rfl h hw rfl, fun h => decode_of_bop_eq rfl h hw rfl,
    fun i h => decode_of_bop_eq rfl (h.trans (digest_code i)) hw rfl, fun hmem => ?_⟩
  cases hd : decode (.bus a) with
  | error e => exact ⟨e, rfl⟩
  | ok i =>
    obtain ⟨b, hb⟩ : ∃ b, (HostOp.bus a).canonical = .bus b := ⟨_, rfl⟩
    have hi : encode i = .bus b := by rw [← canonical_of_decode hd, hb]
    exact absurd (bop_eq_of_canonical hb ▸ bop_mem_of_encode_eq hi) hmem

/-- An opcode-table word decodes to what the operation it numbers decodes to. -/
theorem decodeTableWord_eq_some_iff {nbits w : Nat} {i : Instr} :
    decodeTableWord nbits w = some i ↔ ∃ op, tableOp nbits w = some op ∧ decode op = .ok i := by
  rw [decodeTableWord]
  cases tableOp nbits w with
  | none => simp
  | some op => cases hd : decode op <;> simp [hd]

/-- Settles O1: the decoder run on each word. -/
theorem sampleWordsDecode : Obligations.SampleWordsDecode := by
  unfold Obligations.SampleWordsDecode
  decide

end Sys2Proof

namespace Sys2Proof.Machine

/-- An illegal word written through the window is offered with the effect of R181. -/
theorem exec_wrCmd_of_illegal {w : Word} (h : decodeCmd w = none) (s : State) :
    exec (.wrCmd w) s = .next (offerCommand (.access s.params.base .write 32 w) (acceptIllegal w) s) := by
  have hperform : performWord w = acceptIllegal w := by rw [performWord, h]
  rw [exec_cmd (i := .wrCmd w) rfl, hperform]
  rfl

/-- An illegal command word is offered with the effect of R181. -/
theorem runRequest_command_of_illegal {w : Word} (h : decodeCmd w = none) (s : State) :
    runRequest (.command w) s = .next (offerCommand (.command w) (acceptIllegal w) s) := by
  simp [runRequest, presentedOp, decode, h, rejectOp]

/-- Settles O3: which words are illegal is `decodeCmd_eq_none_iff`; in either format such a word is offered with the effect of R181. -/
theorem illegalCommandWords : Obligations.IllegalCommandWords := by
  refine fun w => ⟨decodeCmd_eq_none_iff w, fun h s => ?_⟩
  rw [exec_wrCmd_of_illegal h, runRequest_command_of_illegal h]
  refine ⟨fun hb => ?_, fun hb => ?_⟩
  · rw [offerCommand_idle hb, offerCommand_idle hb]
    exact ⟨rfl, rfl⟩
  · rw [offerCommand_busy hb, offerCommand_busy hb]
    exact ⟨rfl, rfl⟩

/-- Settles O7: the word's operation is placed as the next access, and the step runs what it decodes to. -/
theorem fetchedTableWordRuns : Obligations.FetchedTableWordRuns := by
  intro s nbits w i h
  obtain ⟨op, hop, hd⟩ := decodeTableWord_eq_some_iff.mp h
  have hplaced : s.withFetchWord nbits w = requeue (requestOf s.params op) s := by rw [State.withFetchWord, hop]
  rw [hplaced]
  exact stepRunsDecodedInstruction _ _ s.inputs op i rfl (presentedOp_requestOf s.params op) hd

end Sys2Proof.Machine
end
section
/-! The round functions FF and GG bit by bit (40_compression.md R92, R93), and one round (R95, R96). -/

namespace Sys2Proof.Machine

variable {j : Nat} {x y z : Word}

/-- In rounds 0 to 15 FF is the exclusive-or (R92). -/
theorem ff_of_lt (hj : j < 16) : ff j x y z = x ^^^ y ^^^ z := if_pos hj

/-- In rounds 0 to 15 GG is the exclusive-or (R93). -/
theorem gg_of_lt (hj : j < 16) : gg j x y z = x ^^^ y ^^^ z := if_pos hj

/-- From round 16 on, FF is the or of the three pairwise ands (R92). -/
theorem ff_of_not_lt (hj : ¬ j < 16) : ff j x y z = (x &&& y) ||| (x &&& z) ||| (y &&& z) := if_neg hj

/-- From round 16 on, GG takes `y` under the mask `x` and `z` under its complement (R93). -/
theorem gg_of_not_lt (hj : ¬ j < 16) : gg j x y z = (x &&& y) ||| (~~~x &&& z) := if_neg hj

theorem getLsbD_xor_xor (x y z : Word) (i : Nat) :
    (x ^^^ y ^^^ z).getLsbD i = ((x.getLsbD i != y.getLsbD i) != z.getLsbD i) := by
  rw [BitVec.getLsbD_xor, BitVec.getLsbD_xor, Bool.bne_eq_xor]

/-- The or of the three pairwise ands of three bits is their majority. -/
theorem or_and_eq_majority : ∀ a b c : Bool, (a && b || a && c || b && c) = decide (2 ≤ a.toNat + b.toNat + c.toNat) := by
  decide

/-- A bit that masks one bit and, inverted, another chooses between the two. -/
theorem or_and_not_eq_choice : ∀ a b c : Bool, (a && b || !a && c) = if a then b else c := by
  decide

/-- From round 16 on, a bit of FF is the majority of the three bits (R92). -/
theorem getLsbD_ff_of_not_lt (hj : ¬ j < 16) (i : Nat) : (ff j x y z).getLsbD i =
    decide (2 ≤ (x.getLsbD i).toNat + (y.getLsbD i).toNat + (z.getLsbD i).toNat) := by
  simp only [ff_of_not_lt hj, BitVec.getLsbD_or, BitVec.getLsbD_and, or_and_eq_majority]

/-- From round 16 on, a bit of GG is `y`'s where `x` has 1 and `z`'s where `x` has 0 (R93). -/
theorem getLsbD_gg_of_not_lt (hj : ¬ j < 16) {i : Nat} (hi : i < 32) :
    (gg j x y z).getLsbD i = if x.getLsbD i then y.getLsbD i else z.getLsbD i := by
  simp only [gg_of_not_lt hj, BitVec.getLsbD_or, BitVec.getLsbD_and, BitVec.getLsbD_not, hi, decide_true, Bool.true_and,
    or_and_not_eq_choice]

/-- Settles O31: the exclusive-or in the first sixteen rounds; after them the majority for FF and the choice for GG. -/
theorem booleanFunctionsBitwise : Obligations.BooleanFunctionsBitwise := by
  intro j i x y z hi
  by_cases hj : j < 16
  · simp only [if_pos hj, ff_of_lt hj, gg_of_lt hj, getLsbD_xor_xor, and_self]
  · simp only [if_neg hj, getLsbD_ff_of_not_lt hj, getLsbD_gg_of_not_lt hj hi, and_self]

/-- Settles O33: the model's round is the spec's assignments with SS1, SS2, TT1, TT2, T'j and P0 named, each equal to its expression
by definition. -/
theorem roundUpdatesRegisters : Obligations.RoundUpdatesRegisters := fun _ _ _ _ => rfl

end Sys2Proof.Machine
end
section
/-! The message schedule (41_message_schedule.md): the recurrence indexed by the word it computes (R111), and the sliding window after
any number of steps (R116). -/

namespace Sys2Proof.Machine

/-- The recurrence of R111, written from the word it computes. -/
theorem expandedWord_of_sixteen_le (m : Window) {j : Nat} (hlo : 16 ≤ j) (hhi : j ≤ 67) :
    expandedWord m j =
      p1 (expandedWord m (j - 16) ^^^ expandedWord m (j - 9) ^^^ rotl (expandedWord m (j - 3)) 15)
        ^^^ rotl (expandedWord m (j - 13)) 7 ^^^ expandedWord m (j - 6) := by
  obtain ⟨i, rfl⟩ := Nat.exists_eq_add_of_le' hlo
  simpa only [Nat.add_sub_cancel, Nat.reduceSubDiff] using expandedWord_add_sixteen m hhi

/-- The block's own words are the window at 0, and each step slides it by one word. -/
theorem windowHolds_iterate (m : Window) (j : Nat) : WindowHolds m j (windowStep^[j] m) := by
  induction j with
  | zero => exact windowHolds_words m
  | succ j ih =>
    rw [Function.iterate_succ_apply']
    exact ih.windowStep

/-- Settles O34: the first sixteen words are the block's, each later one is made by the recurrence, and the mixed word is defined as
the exclusive-or. -/
theorem scheduleRecurrence : Obligations.ScheduleRecurrence := fun m =>
  ⟨expandedWord_of_lt m, fun _ hlo hhi => expandedWord_of_sixteen_le m hlo hhi, fun _ _ => rfl⟩

/-- Settles O35, from the window after `j` steps. -/
theorem windowHoldsSchedule : Obligations.WindowHoldsSchedule := windowHolds_iterate

end Sys2Proof.Machine
end
section
/-! The engine's two kinds of step (42_round_engine.md R121, R122, R124): what a number of rounds does and leaves alone, and the finish
step. -/

namespace Sys2Proof.Machine

/-- A round writes A..H, WQ and J alone (R121, R122). -/
theorem roundOnce_frame (s : State) : ∃ r q j, roundOnce s = { s with regs := r, wq := q, j := j } := by
  unfold roundOnce
  split
  · exact ⟨_, _, _, rfl⟩
  · exact ⟨s.regs, s.wq, s.j, rfl⟩

/-- So does any number of rounds. -/
theorem roundOnce_iterate_frame (n : Nat) (s : State) : ∃ r q j, roundOnce^[n] s = { s with regs := r, wq := q, j := j } := by
  induction n with
  | zero => exact ⟨s.regs, s.wq, s.j, rfl⟩
  | succ n ih =>
    obtain ⟨r, q, j, h⟩ := ih
    obtain ⟨r', q', j', h'⟩ := roundOnce_frame { s with regs := r, wq := q, j := j }
    exact ⟨r', q', j', by rw [Function.iterate_succ_apply', h, h']⟩

/-- Of the fields the host sees, the finish step writes V and BUSY alone (R121, R124). -/
theorem engineFinish_frame (s : State) : engineFinish s = { s with
    v := (engineFinish s).v, busy := (engineFinish s).busy, pend := (engineFinish s).pend, blk := (engineFinish s).blk
    regs := (engineFinish s).regs, wq := (engineFinish s).wq, j := (engineFinish s).j } := by
  unfold engineFinish
  split <;> rfl

/-- Settles O37: an idle engine does not move, rounds write A..H, WQ and J, and the finish step has its own frame. -/
theorem engineStepFrame : Obligations.EngineStepFrame := by
  intro s
  refine ⟨engineStep_idle, fun hb hj => ?_, fun hb hj => ?_⟩
  · rw [engineStep_round hb hj]
    obtain ⟨r, q, j, h⟩ := roundOnce_iterate_frame s.params.k.toNat s
    rw [engineRound, h]
  · rw [engineStep_finish hb hj]
    exact engineFinish_frame s

/-- `n` rounds that do not pass 64 slide the window `n` times, and the round `r` of them reads the window slid `r` times (R122). -/
theorem roundOnce_iterate_wq_regs (n : Nat) (s : State) (h : s.j.val + n ≤ 64) :
    (roundOnce^[n] s).wq = windowStep^[n] s.wq ∧
    (roundOnce^[n] s).regs = (List.range n).foldl
      (fun regs r => compressRound (s.j.val + r) regs (windowStep^[r] s.wq)[0]
        ((windowStep^[r] s.wq)[0] ^^^ (windowStep^[r] s.wq)[4])) s.regs := by
  induction n with
  | zero => exact ⟨rfl, rfl⟩
  | succ n ih =>
    obtain ⟨hwq, hregs⟩ := ih (by omega)
    have hj : (roundOnce^[n] s).j.val = s.j.val + n := roundOnce_iterate_j n s (by omega)
    obtain ⟨hregs', hwq', -⟩ := roundOnce_of_lt (s := roundOnce^[n] s) (by omega)
    rw [Function.iterate_succ_apply', Function.iterate_succ_apply', List.range_succ, List.foldl_concat, hregs', hwq', hj, hwq, hregs]
    exact ⟨rfl, rfl⟩

/-- Settles O38: a round step is K rounds. -/
theorem roundStepPerformsKRounds : Obligations.RoundStepPerformsKRounds := by
  intro s hb hj hk
  rw [engineStep_round hb hj]
  exact ⟨engineRound_j hk, roundOnce_iterate_wq_regs s.params.k.toNat s hk⟩

/-- With the length block pending the finish step starts its compression from the fed-forward V (R124). -/
theorem engineFinish_of_pend {s : State} (h : s.pend = true) :
    engineFinish s = startCompression { s with v := feedForward s.v s.regs, pend := false } (lenBlock s.len) := by
  simp [engineFinish, h]

/-- The length block: 56 zero bytes, then LEN from its most significant byte on (R153). -/
theorem lenBlock_eq_ofFn (n : Length) :
    lenBlock n = Vector.ofFn fun i : Fin 64 => if i.val < 56 then 0x00 else n.extractLsb' (56 - 8 * (i.val - 56)) 8 := by
  unfold lenBlock withLength
  congr 1
  funext i
  by_cases hi : i.val < 56
  · rw [if_pos hi, if_neg (by omega)]
    simp
  · rw [if_neg hi, if_pos (by omega), lenByte]

/-- Settles O39: the two cases of PEND, with the feed-forward by definition the exclusive-ors of the statement. -/
theorem finishStepFeedsForward : Obligations.FinishStepFeedsForward := by
  intro s hb hj
  rw [engineStep_finish hb hj]
  refine ⟨engineFinish_of_not_pend, fun hp => ?_⟩
  rw [← lenBlock_eq_ofFn]
  exact engineFinish_of_pend hp

/-- An access to an address outside the window reaches nothing of the block (R50). -/
theorem runRequest_outside {s : State} {addr width : Nat} {dir : Dir} {data : Word}
    (h : addr < s.params.base ∨ s.params.base + 64 ≤ addr) : runRequest (.access addr dir width data) s = .next s := by
  simp [runRequest, presentedOp, windowOffset_outside h]

/-- Settles O9: each is the step's own case for the head of the events. -/
theorem stepWithoutInstruction : Obligations.StepWithoutInstruction := by
  refine ⟨fun s hi => ?_, fun s rest hi => ?_, fun s rest addr width dir data hi ho => ?_⟩
  · rw [step, hi]
  · rw [step, hi]
  · rw [step, hi]
    exact runRequest_outside (s := { s with inputs := rest }) ho

end Sys2Proof.Machine
end
section
/-! A compression from its start to its finish step (42_round_engine.md R125, R126): 64/K round steps are 64 rounds whatever K is, and
the finish step ends at CF or goes on to the length block. -/

namespace Sys2Proof.Machine

/-- Round steps that do not pass round 64 are that many times K rounds (R122). -/
theorem engineStep_iterate_rounds {s : State} (hb : s.busy = true) (n : Nat) (h : s.j.val + n * s.params.k.toNat ≤ 64) :
    engineStep^[n] s = roundOnce^[n * s.params.k.toNat] s := by
  induction n with
  | zero => rw [Nat.zero_mul]; rfl
  | succ n ih =>
    have hk := roundsPerStep_pos s.params.k
    rw [Nat.succ_mul] at h
    obtain ⟨r, q, j, he⟩ := roundOnce_iterate_frame (n * s.params.k.toNat) s
    have hj := roundOnce_iterate_j (n * s.params.k.toNat) s (by omega)
    have hround : engineStep (roundOnce^[n * s.params.k.toNat] s) = roundOnce^[s.params.k.toNat] (roundOnce^[n * s.params.k.toNat] s) := by
      rw [engineStep_round (by rw [he]; exact hb) (by omega), engineRound]
      congr 2
      rw [he]
    rw [Function.iterate_succ_apply', ih (by omega), hround, ← Function.iterate_add_apply, Nat.succ_mul, Nat.add_comm]

/-- A busy engine is at the start of a compression. -/
def AtRoundZero (s : State) : Prop := s.busy = true → s.j = 0

/-- What the engine does from the start of a compression to its finish step, without K: 64 rounds and the finish. -/
def runCompression (s : State) : State := if s.busy then engineFinish (roundOnce^[64] s) else s

/-- An idle engine has no compression to run. -/
theorem runCompression_idle {s : State} (h : s.busy = false) : runCompression s = s := by
  simp [runCompression, h]

/-- A busy engine runs its 64 rounds and the finish step. -/
theorem runCompression_busy {s : State} (h : s.busy = true) : runCompression s = engineFinish (roundOnce^[64] s) := by
  simp [runCompression, h]

/-- From the start of a compression, 64/K round steps and the finish step run it (R126). -/
theorem engineStep_iterate_eq_runCompression {s : State} (h : AtRoundZero s) :
    engineStep^[64 / s.params.k.toNat + 1] s = runCompression s := by
  cases hb : s.busy with
  | false => rw [engineStep_iterate_idle hb, runCompression_idle hb]
  | true =>
    have hj : s.j.val = 0 := by rw [h hb]; rfl
    have hall : 64 / s.params.k.toNat * s.params.k.toNat = 64 := Nat.div_mul_cancel (roundsPerStep_dvd _)
    have hend : (roundOnce^[64] s).j.val = 64 := by rw [roundOnce_iterate_j 64 s (by omega), hj]
    have hbusy : (roundOnce^[64] s).busy = true := by rw [iterate_keeps (g := State.busy) roundOnce_busy, hb]
    rw [Function.iterate_succ_apply', engineStep_iterate_rounds hb _ (by omega), hall, engineStep_finish hbusy hend,
      runCompression_busy hb]

/-- The finish step leaves the engine idle or at the start of the length block's compression (R124). -/
theorem atRoundZero_engineFinish (s : State) : AtRoundZero (engineFinish s) := by
  unfold engineFinish
  split
  · exact fun _ => rfl
  · exact nofun

theorem AtRoundZero.runCompression {s : State} (h : AtRoundZero s) : AtRoundZero (runCompression s) := by
  unfold Machine.runCompression
  split
  · exact atRoundZero_engineFinish _
  · exact h

/-- Settling from the start of a compression is running two compressions, where there are two (R126). -/
theorem settle_eq_runCompression {s : State} (h : AtRoundZero s) : settle s = runCompression (runCompression s) := by
  have hparams : (engineStep^[64 / s.params.k.toNat + 1] s).params = s.params := iterate_keeps (g := State.params) engineStep_params _ s
  rw [engineStep_iterate_eq_runCompression h] at hparams
  rw [settle, Nat.two_mul, Function.iterate_add_apply, engineStep_iterate_eq_runCompression h, ← hparams,
    engineStep_iterate_eq_runCompression h.runCompression]

/-- A compression is always started at round 0 (R120). -/
theorem atRoundZero_startCompression (s : State) (b : Block) : AtRoundZero (startCompression s b) := fun _ => rfl

/-- With nothing pending, a compression ends idle with V the compression function of the block (R125). -/
theorem runCompression_startCompression {s : State} (b : Block) (hp : s.pend = false) :
    (runCompression (startCompression s b)).v = cf s.v b ∧ (runCompression (startCompression s b)).busy = false ∧
    (runCompression (startCompression s b)).pend = false := by
  rw [← engineStep_iterate_eq_runCompression (atRoundZero_startCompression s b)]
  refine engineStep_iterate_finishes _ (startCompression s b) rfl hp (engineOnTrack_startCompression s b) ?_
  rw [startCompression_j, Fin.val_zero, Nat.zero_add, Nat.div_mul_cancel (roundsPerStep_dvd _)]

/-- With PEND = 1, a compression ends at the start of that of the length block, from CF of the first block (R124, R125). -/
theorem runCompression_startCompression_of_pend {s : State} (b : Block) (hp : s.pend = true) :
    runCompression (startCompression s b) = startCompression { s with v := cf s.v b, pend := false } (lenBlock s.len) := by
  have ht : EngineOnTrack (roundOnce^[64] (startCompression s b)) :=
    Function.Iterate.rec EngineOnTrack (engineOnTrack_startCompression s b) (fun _ h => h.roundOnce) 64
  have hj : (roundOnce^[64] (startCompression s b)).j.val = 64 := roundOnce_iterate_j 64 (startCompression s b) (Nat.le_refl 64)
  obtain ⟨r, q, j, he⟩ := roundOnce_iterate_frame 64 (startCompression s b)
  rw [he] at ht hj
  rw [runCompression_busy rfl, he, engineFinish_of_pend (by exact hp), ht.feedForward_eq_cf rfl hj]
  rfl

/-- Settles O40: the round steps are rounds, which leave V and BUSY alone, and with the finish step they run the compression. -/
theorem engineComputesCf : Obligations.EngineComputesCf := by
  intro s b hp
  obtain ⟨hv, hbusy, -⟩ := runCompression_startCompression b hp
  have hrun : engineStep^[64 / s.params.k.toNat + 1] (startCompression s b) = runCompression (startCompression s b) :=
    engineStep_iterate_eq_runCompression (atRoundZero_startCompression s b)
  rw [hrun]
  refine ⟨fun n hn => ?_, hbusy, hv⟩
  have hle : n * s.params.k.toNat ≤ 64 := (Nat.le_div_iff_mul_le (roundsPerStep_pos _)).mp hn
  have hrounds : engineStep^[n] (startCompression s b) = roundOnce^[n * s.params.k.toNat] (startCompression s b) :=
    engineStep_iterate_rounds rfl n (by simpa using hle)
  obtain ⟨r, q, j, he⟩ := roundOnce_iterate_frame (n * s.params.k.toNat) (startCompression s b)
  rw [hrounds, he]
  exact ⟨rfl, rfl⟩

/-- Settles O41: the first compression ends at the start of the second, with nothing pending. -/
theorem engineChainsLengthBlock : Obligations.EngineChainsLengthBlock := by
  intro s b hp
  rw [settle_eq_runCompression (atRoundZero_startCompression s b), runCompression_startCompression_of_pend b hp]
  exact runCompression_startCompression (s := { s with v := cf s.v b, pend := false }) (lenBlock s.len) rfl

end Sys2Proof.Machine
end
section
/-! The engine comes to rest from any state (42_round_engine.md R126): the number of its steps still to come falls with each. -/

namespace Sys2Proof.Machine

/-- The engine steps to come (R126): the round steps to J = 64, the finish step, and with PEND = 1 a second compression. -/
def stepsToRest (s : State) : Nat :=
  if s.busy then (64 - s.j.val + (s.params.k.toNat - 1)) / s.params.k.toNat + 1 + (if s.pend then 64 / s.params.k.toNat + 1 else 0)
  else 0

/-- J advances by the number of rounds, up to 64 (R31, R122). -/
theorem roundOnce_iterate_j_eq_min (n : Nat) (s : State) : (roundOnce^[n] s).j.val = min 64 (s.j.val + n) := by
  induction n with
  | zero =>
    show s.j.val = _
    omega
  | succ n ih =>
    rw [Function.iterate_succ_apply']
    by_cases hj : (roundOnce^[n] s).j.val < 64
    · rw [(roundOnce_of_lt hj).2.2]
      omega
    · rw [roundOnce_of_ge hj]
      omega

/-- Rounding up, K more rounds are one round step less (R122). -/
theorem roundStepsLeft_lt {j k : Nat} (hk : 0 < k) (hj : j < 64) :
    (64 - min 64 (j + k) + (k - 1)) / k < (64 - j + (k - 1)) / k := by
  have hle : 64 - min 64 (j + k) + (k - 1) + k ≤ 64 - j + (k - 1) ∨ 64 - min 64 (j + k) = 0 := by omega
  rcases hle with hle | hend
  · calc (64 - min 64 (j + k) + (k - 1)) / k < (64 - min 64 (j + k) + (k - 1) + k) / k := by
          rw [Nat.add_div_right _ hk]; exact Nat.lt_succ_self _
      _ ≤ (64 - j + (k - 1)) / k := Nat.div_le_div_right hle
  · rw [hend, Nat.div_eq_of_lt (by omega)]
    exact Nat.div_pos (by omega) hk

/-- A compression from round 0 has 64/K round steps to come, because K divides 64 (R8). -/
theorem roundSteps_eq (k : RoundsPerStep) : (64 + (k.toNat - 1)) / k.toNat = 64 / k.toNat := by
  cases k <;> rfl

/-- Each engine step brings a busy engine nearer to rest. -/
theorem stepsToRest_engineStep_lt {s : State} (hb : s.busy = true) : stepsToRest (engineStep s) < stepsToRest s := by
  by_cases hj : s.j.val < 64
  · have hlt := roundStepsLeft_lt (roundsPerStep_pos s.params.k) hj
    have hj' : (engineRound s).j.val = min 64 (s.j.val + s.params.k.toNat) := roundOnce_iterate_j_eq_min _ s
    rw [engineStep_round hb hj, stepsToRest, stepsToRest, engineRound_busy, engineRound_params, engineRound_pend, hj', if_pos hb,
      if_pos hb]
    omega
  · rw [engineStep_finish hb (by omega)]
    cases hp : s.pend with
    | false => simp [stepsToRest, engineFinish_of_not_pend hp, hb]
    | true => simp [stepsToRest, engineFinish_of_pend hp, hb, hp, roundSteps_eq]

/-- An engine given the steps it needs is at rest. -/
theorem idle_of_stepsToRest_le (n : Nat) (s : State) (h : stepsToRest s ≤ n) : (engineStep^[n] s).busy = false := by
  induction n generalizing s with
  | zero =>
    cases hb : s.busy with
    | false => exact hb
    | true => simp [stepsToRest, hb] at h
  | succ n ih =>
    cases hb : s.busy with
    | false => rw [engineStep_iterate_idle hb, hb]
    | true =>
      have := stepsToRest_engineStep_lt hb
      exact ih (engineStep s) (by omega)

/-- No state is further from rest than the start of two compressions (R126). -/
theorem stepsToRest_le (s : State) : stepsToRest s ≤ 2 * (64 / s.params.k.toNat + 1) := by
  have hle : (64 - s.j.val + (s.params.k.toNat - 1)) / s.params.k.toNat ≤ 64 / s.params.k.toNat := by
    rw [← roundSteps_eq]
    exact Nat.div_le_div_right (by omega)
  unfold stepsToRest
  split
  · split <;> omega
  · exact Nat.zero_le _

/-- Settles O42: the steps to come fall with each step and never exceed the bound. -/
theorem engineStopsWithinBound : Obligations.EngineStopsWithinBound := fun s =>
  idle_of_stepsToRest_le _ s (stepsToRest_le s)

end Sys2Proof.Machine
end
section
/-! No result depends on the parameters (42_round_engine.md R127, 00_scope.md R8): the effect of a command, a round and the finish step
read none of them, and a settled engine has run whole compressions, whatever K is. -/

namespace Sys2Proof.Machine

/-- The block with other parameters (R8). -/
def withParams (p : Params) (s : State) : State := { s with params := p }

@[simp] theorem withParams_len (p : Params) (s : State) : (withParams p s).len = s.len := rfl
@[simp] theorem withParams_phase (p : Params) (s : State) : (withParams p s).phase = s.phase := rfl
@[simp] theorem lenOK_withParams (p : Params) (s : State) (n : Nat) : lenOK (withParams p s) n = lenOK s n := rfl
@[simp] theorem dvalid_withParams (p : Params) (s : State) : dvalid (withParams p s) = dvalid s := rfl

open Function (Commute)

variable (p : Params)

/-- A round reads none of the parameters (R122). -/
theorem roundOnce_commute_withParams : Commute roundOnce (withParams p) := fun s => by
  unfold roundOnce withParams
  dsimp only
  split <;> rfl

/-- Nor does the finish step (R124). -/
theorem engineFinish_commute_withParams : Commute engineFinish (withParams p) := fun s => by
  unfold engineFinish withParams
  dsimp only
  split <;> rfl

/-- A whole compression gives the same under every K (R123, R127). -/
theorem runCompression_commute_withParams : Commute runCompression (withParams p) := fun s => by
  cases hb : s.busy with
  | false => rw [runCompression_idle hb, runCompression_idle (s := withParams p s) hb]
  | true =>
    rw [runCompression_busy hb, runCompression_busy (s := withParams p s) hb, (roundOnce_commute_withParams p).iterate_left 64 s,
      engineFinish_commute_withParams p]

/-- From the start of a compression, the settled engine is the same under every K (R127). -/
theorem settle_withParams {s : State} (h : AtRoundZero s) : settle (withParams p s) = withParams p (settle s) := by
  rw [settle_eq_runCompression h, settle_eq_runCompression (s := withParams p s) h, runCompression_commute_withParams p,
    runCompression_commute_withParams p]

/-- Raising a cause reads none of the parameters (R180 to R184). -/
theorem raise_commute_withParams (r : FaultRecord) : Commute (raise r) (withParams p) := fun s => by
  cases r <;> rfl

theorem pushByte_withParams (s : State) (x : Byte) : pushByte (withParams p s) x = withParams p (pushByte s x) := by
  unfold pushByte withParams
  dsimp only
  split <;> rfl

/-- The bytes of a PUSH go to BUF alike under all parameters (R141). -/
theorem pushBytes_commute_withParams (n : Nat) : Commute (pushBytes n) (withParams p) := fun s => by
  rw [pushBytes, pushBytes, ← List.foldl_hom (withParams p) (pushByte_withParams p)]
  rfl

/-- The first block of a FINALIZE is built from BUF, BUFLEN and LEN alone (R152). -/
theorem startFinal_commute_withParams : Commute startFinal (withParams p) := fun s => by
  unfold startFinal withParams
  dsimp only
  split <;> rfl

theorem acceptPush_commute_withParams (n : Fin 5) : Commute (acceptPush n) (withParams p) := fun s => by
  unfold acceptPush
  rw [withParams_phase, lenOK_withParams, withParams_len]
  split
  · exact raise_commute_withParams p _ s
  · split
    · exact pushBytes_commute_withParams p _ s
    · exact raise_commute_withParams p _ s

theorem acceptFinalize_commute_withParams : Commute acceptFinalize (withParams p) := fun s => by
  unfold acceptFinalize
  rw [withParams_phase, startFinal_commute_withParams]
  split
  · exact raise_commute_withParams p _ s
  · rfl

/-- The effect of an accepted CMD write is the same under all parameters (R127). -/
theorem cmdEffect_commute_withParams {i : Instr} {f : State → State} (h : cmdEffect i = some f) : Commute f (withParams p) := by
  rcases cmdEffect_cases h with ⟨c, -, rfl⟩ | ⟨w, -, -, rfl⟩
  · cases c with
    | nop => exact fun _ => rfl
    | init => exact fun _ => rfl
    | push n => exact acceptPush_commute_withParams p n
    | finalize => exact acceptFinalize_commute_withParams p
  · exact raise_commute_withParams p (.illegalCommand w)

/-- An instruction run with BUSY = 0 does the same under all parameters (R127). -/
theorem exec_withParams {i : Instr} {s t : State} (hb : s.busy = false) (h : exec i s = .next t) :
    exec i (withParams p s) = .next (withParams p t) := by
  cases hf : cmdEffect i with
  | some f =>
    rw [exec_cmd hf, offerCommand_idle hb] at h
    cases h
    rw [exec_cmd hf, offerCommand_idle (s := withParams p s) hb, cmdEffect_commute_withParams p hf]
    rfl
  | none =>
    cases i with
    | rdDigest k =>
      cases h
      show Host.Outcome.next _ = _
      rw [dvalid_withParams]
      split <;> rfl
    | wrDin v => cases h; rfl
    | rdDin => cases h; rfl
    | rdStatus => cases h; rfl
    | rdLenHi => cases h; rfl
    | rdLenLo => cases h; rfl
    | _ => cases hf

theorem AtRoundZero.pushByte {s : State} (h : AtRoundZero s) (x : Byte) : AtRoundZero (pushByte s x) := by
  rcases pushByte_cases s x with ⟨-, he⟩ | ⟨-, he⟩ <;> rw [he]
  · exact h
  · exact fun _ => rfl

/-- A command starts its compression at round 0 and leaves one that stands there (R120). -/
theorem CommandEffect.atRoundZero {s t : State} {c : Command} (h : CommandEffect s c t) (hs : AtRoundZero s) : AtRoundZero t := by
  cases h with
  | nop => exact hs
  | init => exact hs
  | rejected _ r => cases r <;> exact hs
  | pushed n => exact List.foldlRecOn (motive := AtRoundZero) _ _ hs fun _ ht x _ => ht.pushByte x
  | finalized => exact fun _ => startFinal_j s

/-- After an instruction run with BUSY = 0 the engine is idle or at the start of a compression. -/
theorem atRoundZero_of_exec {i : Instr} {s t : State} (hb : s.busy = false) (h : exec i s = .next t) : AtRoundZero t := by
  have hs : AtRoundZero s := fun hbusy => by simp [hb] at hbusy
  rcases exec_cases h with ⟨f, -, hbusy, -⟩ | ⟨f, hf, -, rfl⟩ | ⟨v, -, rfl⟩ | ⟨x, d, -, -, rfl⟩
  · simp [hb] at hbusy
  · rcases cmdEffect_cases hf with ⟨c, -, rfl⟩ | ⟨w, -, -, rfl⟩
    · exact (commandEffect_performCommand c s).atRoundZero hs
    · exact hs
  · exact hs
  · exact hs

/-- Settles O43: the instruction does the same under the other parameters, and leaves the engine at the start of a compression, from
which it settles alike. -/
theorem resultsIndependentOfParameters : Obligations.ResultsIndependentOfParameters := by
  intro i s t p hb h
  exact ⟨withParams p t, exec_withParams p hb h, settle_withParams p (atRoundZero_of_exec hb h)⟩

end Sys2Proof.Machine
end
section
/-! Bytes written into BUF one after another (43_streaming_buffer.md R140, R141). -/

namespace Sys2Proof.Machine

/-- The first byte of a run goes to its place in BUF. -/
theorem writeAt_cons {b : Block} {r : Nat} (hr : r < 64) (x : Byte) (l : List Byte) :
    writeAt b r (x :: l) = writeAt (b.set r x) (r + 1) l := by
  have hset : b.setIfInBounds r x = b.set r x :=
    Vector.ext fun i hi => by rw [Vector.getElem_setIfInBounds, Vector.getElem_set]
  rw [writeAt, hset]

/-- A byte of BUF after a run of bytes is written from `r` on: the run's own byte where there is one, else the byte that stood there. -/
theorem writeAt_getElem (l : List Byte) (b : Block) (r i : Nat) (hi : i < 64) :
    (writeAt b r l)[i] = if r ≤ i then l.getD (i - r) b[i] else b[i] := by
  induction l generalizing b r with
  | nil => simp [writeAt]
  | cons x l ih =>
    rw [writeAt, ih, Vector.getElem_setIfInBounds]
    rcases Nat.lt_trichotomy r i with hlt | rfl | hgt
    · have hsub : i - r = (i - (r + 1)) + 1 := by omega
      rw [if_pos (by omega), if_neg (by omega), if_pos (by omega), hsub, List.getD_cons_succ]
    · simp
    · rw [if_neg (by omega), if_neg (by omega), if_neg (by omega)]

/-- The bytes of BUF up to the end of a run written from `r` on: those before `r`, then the run. -/
theorem take_writeAt (l : List Byte) (b : Block) (r : Nat) (h : r + l.length ≤ 64) :
    (writeAt b r l).toList.take (r + l.length) = b.toList.take r ++ l := by
  induction l generalizing b r with
  | nil => simp [writeAt]
  | cons x l ih =>
    rw [List.length_cons] at h ⊢
    have hr : r < 64 := by omega
    rw [writeAt_cons hr, show r + (l.length + 1) = r + 1 + l.length by omega, ih _ _ (by omega), take_set_succ b r hr,
      List.append_assoc, List.singleton_append]

/-- A run written over the front of BUF is what BUF begins with. -/
theorem take_writeAt_zero (l : List Byte) (b : Block) (h : l.length ≤ 64) : (writeAt b 0 l).toList.take l.length = l := by
  simpa using take_writeAt l b 0 (by omega)

/-- BUF once the first bytes of `l` have filled it up from `r` on. -/
def filledBlock (b : Block) (r : Nat) (l : List Byte) : Block := writeAt b r (l.take (64 - r))

/-- A full buffer is the block of the remainder and the bytes that filled it up. -/
theorem filledBlock_eq_blockOf {b : Block} {r : Nat} {l : List Byte} (hr : r ≤ 64) (h : 64 ≤ r + l.length) :
    filledBlock b r l = blockOf (b.toList.take r ++ l) := by
  have hlen : r + (l.take (64 - r)).length = 64 := by rw [List.length_take]; omega
  have hbytes : (filledBlock b r l).toList = b.toList.take r ++ l.take (64 - r) := by
    rw [← take_writeAt _ b r hlen.le, hlen, List.take_of_length_le (by simp), filledBlock]
  calc filledBlock b r l = blockOf (filledBlock b r l).toList := (blockOf_toList _).symm
    _ = blockOf ((filledBlock b r l).toList ++ l.drop (64 - r)) := (blockOf_append (by rw [Vector.length_toList]) _).symm
    _ = blockOf (b.toList.take r ++ l) := by rw [hbytes, List.append_assoc, List.take_append_drop]

end Sys2Proof.Machine
end
section
/-! PUSH in closed form (43_streaming_buffer.md R141): the loop over the bytes of DIN, said as one update of the state. -/

namespace Sys2Proof.Machine

/-- Bytes that do not fill the buffer follow the remainder. -/
theorem foldl_pushByte_of_lt (l : List Byte) (s : State) (h : s.buflen.toNat + l.length < 64) :
    l.foldl pushByte s =
      { s with buf := writeAt s.buf s.buflen.toNat l, buflen := BitVec.ofNat 6 (s.buflen.toNat + l.length) } := by
  induction l generalizing s with
  | nil => simp [writeAt]
  | cons x l ih =>
    rw [List.length_cons] at h
    rcases pushByte_cases s x with ⟨hlt, he⟩ | ⟨hlast, -⟩
    · have hbl : (s.buflen + 1).toNat = s.buflen.toNat + 1 := by bv_omega
      rw [List.foldl_cons, he, ih _ (by rw [hbl]; omega), hbl, List.length_cons, writeAt_cons s.buflen.isLt, Nat.add_assoc,
        Nat.add_comm 1]
    · omega

/-- Bytes that just fill the buffer start the compression of the full block. -/
theorem foldl_pushByte_of_eq (l : List Byte) (s : State) (h : s.buflen.toNat + l.length = 64) :
    l.foldl pushByte s =
      { startCompression { s with buf := writeAt s.buf s.buflen.toNat l } (writeAt s.buf s.buflen.toNat l) with buflen := 0 } := by
  induction l generalizing s with
  | nil => exact absurd s.buflen.isLt (by rw [List.length_nil] at h; omega)
  | cons x l ih =>
    rw [List.length_cons] at h
    rw [List.foldl_cons, writeAt_cons s.buflen.isLt]
    rcases pushByte_cases s x with ⟨hlt, he⟩ | ⟨hlast, he⟩
    · have hbl : (s.buflen + 1).toNat = s.buflen.toNat + 1 := by bv_omega
      rw [he, ih _ (by rw [hbl]; omega), hbl]
      rfl
    · have hnil : l = [] := List.length_eq_zero_iff.mp (by omega)
      rw [he, hnil]
      rfl

/-- Bytes that fill the buffer once start the compression of the full block, and the bytes left start the next remainder. -/
theorem foldl_pushByte_of_le (l : List Byte) (s : State) (hlo : 64 ≤ s.buflen.toNat + l.length)
    (hhi : s.buflen.toNat + l.length < 128) :
    l.foldl pushByte s =
      { startCompression s (filledBlock s.buf s.buflen.toNat l) with
        buf := writeAt (filledBlock s.buf s.buflen.toNat l) 0 (l.drop (64 - s.buflen.toNat))
        buflen := BitVec.ofNat 6 (s.buflen.toNat + l.length - 64) } := by
  have hr : s.buflen.toNat < 64 := s.buflen.isLt
  have hfill := foldl_pushByte_of_eq (l.take (64 - s.buflen.toNat)) s (by rw [List.length_take]; omega)
  have hleft : 0 + (l.drop (64 - s.buflen.toNat)).length = s.buflen.toNat + l.length - 64 := by rw [List.length_drop]; omega
  calc l.foldl pushByte s
      = (l.drop (64 - s.buflen.toNat)).foldl pushByte ((l.take (64 - s.buflen.toNat)).foldl pushByte s) := by
        rw [← List.foldl_append, List.take_append_drop]
    _ = _ := by
      rw [hfill, foldl_pushByte_of_lt _ _ (by show 0 + _ < 64; omega)]
      simp only [← hleft]
      rfl

/-- A byte of DIN's first `n`, most significant first (R58). -/
theorem dinBytes_getD (w : Word) (n k : Nat) (d : Byte) :
    (dinBytes w n).getD k d = if k < n then w.extractLsb' (24 - 8 * k) 8 else d := by
  by_cases h : k < n
  · simp [dinBytes, wordByte, h]
  · simp [dinBytes, h]

/-- LEN counts the bits of a PUSH (R141 step 3). -/
theorem len_add_ofNat (n : Length) (k : Nat) : n + BitVec.ofNat 64 k = BitVec.ofNat 64 (n.toNat + k) := by
  rw [BitVec.ofNat_add, BitVec.ofNat_toNat, BitVec.setWidth_eq]

/-- The command word of PUSH(N) (R75). -/
theorem word_push (n : Fin 5) : (Command.push n).word = BitVec.ofNat 32 (2 + 16 * n.val) := by
  revert n
  decide

/-- An accepted PUSH is answered as a completed write of its effect. -/
theorem exec_pushInstr {s : State} (hb : s.busy = false) (n : Fin 5) :
    exec (pushInstr n) s = .next (respond .written (acceptPush n s)) := by
  have hcmd : cmdEffect (pushInstr n) = some (performCommand (.push n)) := cmdEffect_of_command (.inl rfl)
  rw [exec_cmd hcmd, offerCommand_idle hb, performCommand]

/-- PUSH of bytes that do not fill the buffer. -/
theorem pushBytes_of_lt {n : Nat} {s : State} (h : s.buflen.toNat + n < 64) :
    pushBytes n s = { s with
      len := s.len + BitVec.ofNat 64 (8 * n)
      buf := writeAt s.buf s.buflen.toNat (dinBytes s.din n)
      buflen := BitVec.ofNat 6 (s.buflen.toNat + n) } := by
  rw [pushBytes, foldl_pushByte_of_lt _ _ (by rwa [dinBytes_length]), dinBytes_length]

/-- PUSH of bytes that fill the buffer. -/
theorem pushBytes_of_le {n : Nat} {s : State} (hlo : 64 ≤ s.buflen.toNat + n) (hn : n ≤ 64) :
    pushBytes n s = { startCompression s (filledBlock s.buf s.buflen.toNat (dinBytes s.din n)) with
      len := s.len + BitVec.ofNat 64 (8 * n)
      buf := writeAt (filledBlock s.buf s.buflen.toNat (dinBytes s.din n)) 0 ((dinBytes s.din n).drop (64 - s.buflen.toNat))
      buflen := BitVec.ofNat 6 (s.buflen.toNat + n - 64) } := by
  have hr : s.buflen.toNat < 64 := s.buflen.isLt
  rw [pushBytes, foldl_pushByte_of_le _ _ (by rwa [dinBytes_length])
    (by rw [dinBytes_length]; show s.buflen.toNat + n < 128; omega), dinBytes_length]
  rfl

/-- BUF after a PUSH that does not fill it, byte by byte. -/
theorem writeAt_dinBytes (b : Block) (r : Nat) (w : Word) (n : Nat) :
    writeAt b r (dinBytes w n) = Vector.ofFn fun i : Fin 64 =>
      if r ≤ i.val ∧ i.val < r + n then w.extractLsb' (24 - 8 * (i.val - r)) 8 else b[i] := by
  refine Vector.ext fun i hi => ?_
  rw [writeAt_getElem, dinBytes_getD, Vector.getElem_ofFn]
  by_cases hr : r ≤ i
  · simp only [hr, if_true, true_and, show i - r < n ↔ i < r + n by omega]
    rfl
  · simp [hr]

/-- The block a PUSH fills up, byte by byte. -/
theorem filledBlock_dinBytes {b : Block} {r : Nat} {w : Word} {n : Nat} (h : 64 ≤ r + n) :
    filledBlock b r (dinBytes w n) = Vector.ofFn fun i : Fin 64 =>
      if i.val < r then b[i] else w.extractLsb' (24 - 8 * (i.val - r)) 8 := by
  have htake : (dinBytes w n).take (64 - r) = dinBytes w (64 - r) := by
    rw [dinBytes, dinBytes, ← List.map_take, List.take_range, Nat.min_eq_left (by omega)]
  rw [filledBlock, htake, writeAt_dinBytes]
  congr 1
  funext i
  have hi := i.isLt
  by_cases hr : i.val < r
  · rw [if_pos hr, if_neg (by omega)]
  · rw [if_neg hr, if_pos (by omega)]

/-- BUF after the bytes left have started the next remainder, byte by byte. -/
theorem writeAt_drop_dinBytes (b : Block) {k n : Nat} (w : Word) :
    writeAt b 0 ((dinBytes w n).drop k) = Vector.ofFn fun i : Fin 64 =>
      if i.val < n - k then w.extractLsb' (24 - 8 * (k + i.val)) 8 else b[i] := by
  refine Vector.ext fun i hi => ?_
  rw [writeAt_getElem, if_pos (Nat.zero_le i), Nat.sub_zero, List.getD_eq_getElem?_getD, List.getElem?_drop,
    ← List.getD_eq_getElem?_getD, dinBytes_getD, Vector.getElem_ofFn]
  simp only [show k + i < n ↔ i < n - k by omega]
  rfl

/-- Settles O15: the checks of `acceptPush` in their order, then the bytes pushed in closed form, byte by byte. -/
theorem pushCompletes : Obligations.PushCompletes := by
  intro n s hb
  refine ⟨fun hp => ?_, fun hp hover => ?_, fun hp hl hlt => ?_, fun hp hl hle => ?_⟩
  · rw [exec_pushInstr hb, acceptPush, if_pos hp, word_push]
    rfl
  · rw [exec_pushInstr hb, acceptPush, if_neg (by simp [hp]), if_neg (by rw [lenOK_iff]; omega), word_push]
    rfl
  · rw [exec_pushInstr_of_idle hb hp hl, pushBytes_of_lt hlt, len_add_ofNat, writeAt_dinBytes]
    rfl
  · have hr : s.buflen.toNat < 64 := s.buflen.isLt
    have hleft : s.buflen.toNat + n.val - 64 = n.val - (64 - s.buflen.toNat) := by omega
    rw [exec_pushInstr_of_idle hb hp hl, pushBytes_of_le hle (by omega), len_add_ofNat, filledBlock_dinBytes hle,
      writeAt_drop_dinBytes]
    simp only [hleft]
    rfl

end Sys2Proof.Machine
end
section
/-! A stream and the bytes pushed into it (43_streaming_buffer.md R140, R142, R143): both pushes give V over the whole blocks of the old
remainder followed by the bytes, and leave the rest as the new remainder. -/

namespace Sys2Proof.Machine

/-- Fewer than 64 bytes hold no whole block. -/
theorem messageBlocks_of_lt {m : List Byte} (h : m.length < 64) : messageBlocks m = [] ∧ messageRest m = m := by
  have hcount : m.length / 64 = 0 := Nat.div_eq_of_lt h
  simp [messageBlocks, messageRest, hcount]

/-- The first 64 bytes are the first block. -/
theorem messageBlocks_of_le {m : List Byte} (h : 64 ≤ m.length) :
    messageBlocks m = blockOf m :: messageBlocks (m.drop 64) ∧ messageRest m = messageRest (m.drop 64) := by
  have hcount : m.length / 64 = (m.drop 64).length / 64 + 1 := by rw [List.length_drop]; omega
  constructor
  · rw [messageBlocks, hcount, List.range_succ_eq_map, List.map_cons, List.map_map, messageBlocks]
    simp [Function.comp_def, List.drop_drop, Nat.mul_add, Nat.add_comm]
  · rw [messageRest, messageRest, hcount, List.drop_drop, Nat.mul_add, Nat.add_comm]

/-- The strides go over the whole blocks and leave the rest (R140 step 5). -/
theorem strides_eq (n : Nat) (v : HashState) (b : List Byte) (h : b.length < 64 * (n + 1)) :
    strides n v b = ((messageBlocks b).foldl cf v, messageRest b) := by
  induction n generalizing v b with
  | zero =>
    obtain ⟨hblocks, hrest⟩ := messageBlocks_of_lt h
    rw [hblocks, hrest]
    rfl
  | succ n ih =>
    rw [strides]
    split
    · next hlt =>
      obtain ⟨hblocks, hrest⟩ := messageBlocks_of_lt hlt
      rw [hblocks, hrest]
      rfl
    · next hge =>
      obtain ⟨hblocks, hrest⟩ := messageBlocks_of_le (m := b) (by omega)
      have hfirst : blockOf (b.take 64) = blockOf b := by
        rw [← blockOf_append (by simp; omega) (b.drop 64), List.take_append_drop]
      rw [ih _ _ (by rw [List.length_drop]; omega), hblocks, hrest, hfirst]
      rfl

/-- The remainder has BUFLEN bytes (R23). -/
theorem Stream.remainder_length (s : Stream) : s.remainder.length = s.buflen.toNat := by
  have h : s.buflen.toNat < 64 := s.buflen.isLt
  simp [Stream.remainder, h.le]

/-- The stream `t` is what `s` becomes by the bytes `b`: V goes over the whole blocks of remainder and bytes, LEN counts the bytes, and
what no block takes is the new remainder. -/
structure Pushed (s : Stream) (b : List Byte) (t : Stream) : Prop where
  v : t.v = (messageBlocks (s.remainder ++ b)).foldl cf s.v
  len : t.len = s.len + BitVec.ofNat 64 (8 * b.length)
  remainder : t.remainder = messageRest (s.remainder ++ b)

theorem Pushed.buflen {s t : Stream} {b : List Byte} (h : Pushed s b t) : t.buflen.toNat = (s.remainder ++ b).length % 64 := by
  rw [← t.remainder_length, h.remainder, messageRest_length]

/-- The bytes pushed determine the stream, as far as R142 compares two. -/
theorem Pushed.same {s t u : Stream} {b : List Byte} (ht : Pushed s b t) (hu : Pushed s b u) : t.Same u :=
  ⟨ht.v.trans hu.v.symm, ht.len.trans hu.len.symm, BitVec.eq_of_toNat_eq (ht.buflen.trans hu.buflen.symm),
    ht.remainder.trans hu.remainder.symm⟩

theorem pushed_nil (s : Stream) : Pushed s [] s := by
  obtain ⟨hblocks, hrest⟩ := messageBlocks_of_lt (m := s.remainder) (by rw [s.remainder_length]; exact s.buflen.isLt)
  refine ⟨?_, by simp, ?_⟩
  · rw [List.append_nil, hblocks, List.foldl_nil]
  · rw [List.append_nil, hrest]

/-- One byte pushed is one byte more. -/
theorem Pushed.pushOne {s t : Stream} {b : List Byte} (h : Pushed s b t) (x : Byte) : Pushed s (b ++ [x]) (pushOne t x) := by
  have hbl := h.buflen
  have hrem : t.buf.toList.take t.buflen.toNat = messageRest (s.remainder ++ b) := h.remainder
  have htake := take_set_succ t.buf t.buflen.toNat t.buflen.isLt x
  have hlen : t.len + 8 = s.len + BitVec.ofNat 64 (8 * (b ++ [x]).length) := by
    rw [h.len, List.length_append, List.length_singleton, Nat.mul_add, BitVec.ofNat_add, BitVec.add_assoc]
    rfl
  unfold Machine.pushOne
  by_cases hlast : t.buflen.toNat + 1 = 64
  · obtain ⟨hblocks, hrest⟩ := messageBlocks_concat_of_eq x (m := s.remainder ++ b) (by omega)
    have hblock : t.buf.set t.buflen.toNat x = blockOf (messageRest (s.remainder ++ b) ++ [x]) := by
      rw [← hrem, ← htake, List.take_of_length_le (by simp [hlast]), blockOf_toList]
    simp only [if_pos hlast]
    refine ⟨?_, hlen, ?_⟩
    · rw [← List.append_assoc, hblocks, List.foldl_concat, ← h.v, ← hblock]
    · rw [← List.append_assoc, hrest]
      rfl
  · have hlt : t.buflen.toNat < 64 := t.buflen.isLt
    obtain ⟨hblocks, hrest⟩ := messageBlocks_concat_of_lt x (m := s.remainder ++ b) (by omega)
    have hbuflen : (t.buflen + 1).toNat = t.buflen.toNat + 1 := by bv_omega
    simp only [if_neg hlast]
    refine ⟨?_, hlen, ?_⟩
    · rw [← List.append_assoc, hblocks, h.v]
    · rw [← List.append_assoc, hrest, Stream.remainder, hbuflen, htake, hrem]

/-- Bytes pushed one by one follow the bytes pushed before. -/
theorem Pushed.bytewise {s t : Stream} {x : List Byte} (h : Pushed s x t) (y : List Byte) :
    Pushed s (x ++ y) (y.foldl Machine.pushOne t) := by
  induction y generalizing t x with
  | nil => rwa [List.append_nil]
  | cons c y ih => rw [List.foldl_cons, List.append_cons]; exact ih (h.pushOne c)

/-- A slice that does not fill the buffer follows the remainder (R140). -/
theorem pushSlice_of_lt {s : Stream} {b : List Byte} (h : s.buflen.toNat + b.length < 64) :
    pushSlice s b = { s with
      len := s.len + BitVec.ofNat 64 (8 * b.length)
      buf := writeAt s.buf s.buflen.toNat b
      buflen := BitVec.ofNat 6 (s.buflen.toNat + b.length) } := by
  rw [pushSlice]
  simp only [if_pos h]

/-- A slice that fills the buffer goes through the full block, the whole blocks after it, and starts the next remainder (R140). -/
theorem pushSlice_of_le {s : Stream} {b : List Byte} (h : 64 ≤ s.buflen.toNat + b.length) :
    pushSlice s b = {
      v := (messageBlocks (b.drop (64 - s.buflen.toNat))).foldl cf (cf s.v (filledBlock s.buf s.buflen.toNat b))
      len := s.len + BitVec.ofNat 64 (8 * b.length)
      buf := writeAt (filledBlock s.buf s.buflen.toNat b) 0 (messageRest (b.drop (64 - s.buflen.toNat)))
      buflen := BitVec.ofNat 6 (messageRest (b.drop (64 - s.buflen.toNat))).length } := by
  rw [pushSlice]
  simp only [if_neg (Nat.not_lt.mpr h)]
  rw [strides_eq _ _ _ (by rw [List.length_drop]; omega)]
  rfl

/-- The push of a slice pushes its bytes (R140). -/
theorem pushed_pushSlice (s : Stream) (b : List Byte) : Pushed s b (pushSlice s b) := by
  have hr : s.buflen.toNat < 64 := s.buflen.isLt
  have hlen : (s.remainder ++ b).length = s.buflen.toNat + b.length := by rw [List.length_append, s.remainder_length]
  by_cases h : s.buflen.toNat + b.length < 64
  · obtain ⟨hblocks, hrest⟩ := messageBlocks_of_lt (m := s.remainder ++ b) (by omega)
    rw [pushSlice_of_lt h]
    refine ⟨?_, rfl, ?_⟩
    · rw [hblocks, List.foldl_nil]
    · rw [hrest, Stream.remainder, BitVec.toNat_ofNat, Nat.mod_eq_of_lt h, take_writeAt _ _ _ h.le]
      rfl
  · obtain ⟨hblocks, hrest⟩ := messageBlocks_of_le (m := s.remainder ++ b) (by omega)
    have hdrop : (s.remainder ++ b).drop 64 = b.drop (64 - s.buflen.toNat) := by
      rw [List.drop_append, s.remainder_length, List.drop_of_length_le (by rw [s.remainder_length]; omega), List.nil_append]
    have hshort : (messageRest (b.drop (64 - s.buflen.toNat))).length < 64 := by
      rw [messageRest_length]
      exact Nat.mod_lt _ (by decide)
    rw [hdrop] at hblocks hrest
    rw [pushSlice_of_le (by omega)]
    refine ⟨?_, rfl, ?_⟩
    · rw [hblocks, List.foldl_cons, filledBlock_eq_blockOf hr.le (by omega)]
      rfl
    · rw [hrest, Stream.remainder, BitVec.toNat_ofNat, Nat.mod_eq_of_lt hshort, take_writeAt_zero _ _ hshort.le]

/-- Settles O45: both pushes push the same bytes. -/
theorem slicePushIsBytewise : Obligations.SlicePushIsBytewise := fun s b =>
  (pushed_pushSlice s b).same ((pushed_nil s).bytewise b)

/-- Settles O46: the second slice may be pushed byte by byte, and its bytes follow those of the first. -/
theorem chunkingInvariance : Obligations.ChunkingInvariance := by
  intro s x y
  obtain ⟨hv, hlen, hbuflen, hrem⟩ := slicePushIsBytewise (pushSlice s x) y
  obtain ⟨hv', hlen', hbuflen', hrem'⟩ := ((pushed_pushSlice s x).bytewise y).same (pushed_pushSlice s (x ++ y))
  exact ⟨hv.trans hv', hlen.trans hlen', hbuflen.trans hbuflen', hrem.trans hrem'⟩

end Sys2Proof.Machine
end
section
/-! The machine's PUSH and the source's push of a slice (43_streaming_buffer.md R142, R143). -/

namespace Sys2Proof.Machine

/-- The engine brings V about and leaves the rest of the stream alone. -/
theorem settle_stream {s : State} (hp : s.pend = false) (ht : EngineOnTrack s) (hk : OnStride s) :
    (settle s).stream = { s.stream with v := engineResult s } := by
  obtain ⟨hv, -, -⟩ := settle_of_not_pend hp ht hk
  simp [State.stream, hv]

/-- The bytes of DIN pushed by the machine are the slice pushed by the source, V being what the engine will bring about. -/
theorem pushBytes_stream {n : Nat} {s : State} (hb : s.busy = false) (hn : n ≤ 64) :
    { (pushBytes n s).stream with v := engineResult (pushBytes n s) } = pushSlice s.stream (dinBytes s.din n) := by
  have hlen := dinBytes_length s.din n
  by_cases h : s.buflen.toNat + n < 64
  · rw [pushSlice_of_lt (by rw [hlen]; exact h), pushBytes_of_lt h, hlen]
    simp [State.stream, engineResult, hb]
  · have hr : s.buflen.toNat < 64 := s.buflen.isLt
    have hdrop : ((dinBytes s.din n).drop (64 - s.buflen.toNat)).length = s.buflen.toNat + n - 64 := by
      rw [List.length_drop, hlen]
      omega
    obtain ⟨hblocks, hrest⟩ := messageBlocks_of_lt (m := (dinBytes s.din n).drop (64 - s.buflen.toNat)) (by omega)
    rw [pushSlice_of_le (by rw [hlen]; exact Nat.not_lt.mp h), pushBytes_of_le (by omega) hn, hlen]
    simp only [State.stream, hblocks, hrest, hdrop]
    rfl

/-- Settles O47: the settled state's stream is that of the bytes pushed, with the engine's result for V. -/
theorem pushCommandIsSlicePush : Obligations.PushCommandIsSlicePush := by
  intro n s hb hp ha hl
  refine ⟨_, exec_pushInstr_of_idle hb ha hl, ?_⟩
  have htrack : EngineOnTrack (pushBytes n.val s) := (engineOnTrack_of_idle hb).pushBytes n.val
  have hstride : OnStride (pushBytes n.val s) := OnStride.pushBytes (fun hbusy => by simp [hb] at hbusy) n.val
  have hpend : (pushBytes n.val s).pend = false := by rw [pushBytes_pend, hp]
  have hstream : (settle (respond .written (pushBytes n.val s))).stream = pushSlice s.stream (dinBytes s.din n.val) := by
    rw [settle_stream (s := respond .written (pushBytes n.val s)) hpend htrack hstride, ← pushBytes_stream hb (by omega)]
    rfl
  rw [hstream]
  exact ⟨rfl, rfl, rfl, rfl⟩

end Sys2Proof.Machine
end
section
/-! The padded message and its number of blocks (44_finalizer.md R154, R155). -/

namespace Sys2Proof.Machine

@[simp] theorem be64bytes_length (n : Length) : (be64bytes n).length = 8 := by
  rw [be64bytes, List.length_map, List.length_range]

/-- The padding adds 0x80, the zero bytes and the 8 bytes of the length (R154). -/
theorem padded_length (m : List Byte) : (padded m).length = m.length + 1 + padZeros m.length + 8 := by
  simp [padded]
  omega

theorem messageBlocks_length (m : List Byte) : (messageBlocks m).length = m.length / 64 := by
  rw [messageBlocks, List.length_map, List.length_range]

/-- With at most 55 bytes left, the padding ends the block that is begun (R151, R154). -/
theorem padZeros_of_le {l : Nat} (h : l % 64 ≤ 55) : padZeros l = 55 - l % 64 := by
  rw [padZeros]
  omega

/-- With at least 56 bytes left, the zeros end the block that is begun and fill the next up to the length (R151, R154). -/
theorem padZeros_of_lt {l : Nat} (h : 55 < l % 64) : padZeros l = 63 - l % 64 + 56 := by
  rw [padZeros]
  omega

/-- Settles O50: the number of zero bytes in its two cases, and the blocks counted by the length. -/
theorem paddedBlockCount : Obligations.PaddedBlockCount := by
  intro m
  have hlen : (padded m).length = 64 * (m.length / 64 + if m.length % 64 ≤ 55 then 1 else 2) := by
    rw [padded_length]
    split
    · next h => rw [padZeros_of_le h]; omega
    · next h => rw [padZeros_of_lt (Nat.lt_of_not_le h)]; omega
  refine ⟨hlen, ?_, fun z hz => ?_⟩
  · rw [messageBlocks_length, hlen, Nat.mul_div_cancel_left _ (by decide)]
  · rw [padZeros]
    omega

end Sys2Proof.Machine
end
section
/-! FINALIZE byte by byte (44_finalizer.md R150 to R152). -/

namespace Sys2Proof.Machine

theorem padBlock_getElem (s : State) (i : Nat) (hi : i < 64) :
    (padBlock s)[i] = if i < s.buflen.toNat then s.buf[i] else if i = s.buflen.toNat then 0x80 else 0x00 := by
  rw [padBlock, Vector.getElem_ofFn]
  rfl

theorem withLength_getElem (p : Block) (n : Length) (i : Nat) (hi : i < 64) :
    (withLength p n)[i] = if 56 ≤ i then lenByte n (i - 56) else p[i] := by
  rw [withLength, Vector.getElem_ofFn]
  rfl

/-- An accepted FINALIZE is answered as a completed write of its effect. -/
theorem exec_finalize {s : State} (hb : s.busy = false) : exec .finalize s = .next (respond .written (acceptFinalize s)) := by
  rw [exec_cmd rfl, offerCommand_idle hb]

/-- The state in which an accepted FINALIZE leaves a block in phase ACTIVE: its final compressions have started (R152). -/
def finalized (s : State) : State := respond .written { startFinal s with buflen := 0, phase := .final }

/-- The step of an accepted FINALIZE in phase ACTIVE. -/
theorem exec_finalize_of_active {s : State} (hb : s.busy = false) (hp : s.phase = .active) :
    exec .finalize s = .next (finalized s) := by
  rw [exec_finalize hb, acceptFinalize, if_neg (by simp [hp]), finalized]

/-- Settles O16: SEQUENCE in phase FINAL; else the block that `startFinal` compresses, byte by byte, in its two cases. -/
theorem finalizeCompletes : Obligations.FinalizeCompletes := by
  intro s hb
  refine ⟨fun hp => ?_, fun hp => ?_⟩
  · rw [exec_finalize hb, acceptFinalize, if_pos hp]
    rfl
  · intro twoBlocks block
    rw [exec_finalize_of_active hb hp, finalized]
    rcases startFinal_cases s with ⟨hr, he⟩ | ⟨hr, he⟩
    · have htwo : twoBlocks = true := decide_eq_true hr
      have hblock : padBlock s = block := Vector.ext fun i hi => by
        rw [padBlock_getElem, Vector.getElem_ofFn]
        simp [htwo]
      rw [he, hblock, htwo]
      rfl
    · have hone : twoBlocks = false := decide_eq_false (by omega)
      have hblock : withLength (padBlock s) s.len = block := Vector.ext fun i hi => by
        rw [withLength_getElem, padBlock_getElem, Vector.getElem_ofFn]
        by_cases hlen : 56 ≤ i
        · simp [hone, hlen, lenByte, show ¬ i < s.buflen.toNat by omega, show i ≠ s.buflen.toNat by omega]
        · simp [hlen]
      rw [he, hblock, hone]
      rfl

end Sys2Proof.Machine
end
section
/-! Blocks and the bytes they are made of: the last blocks of the padded message, from the bytes that its whole blocks leave
(44_finalizer.md R151 to R154). -/

namespace Sys2Proof.Machine

theorem blockOf_getElem (l : List Byte) (i : Nat) (hi : i < 64) : (blockOf l)[i] = l.getD i 0x00 := by
  rw [blockOf, Vector.getElem_ofFn]

/-- Zero bytes at the end of a block may be left out. -/
theorem blockOf_append_zeros (l : List Byte) (z : Nat) : blockOf (l ++ List.replicate z 0x00) = blockOf l := by
  refine Vector.ext fun i hi => ?_
  rw [blockOf_getElem, blockOf_getElem]
  rcases Nat.lt_or_ge i l.length with h | h
  · exact List.getD_append _ _ _ _ h
  · rw [List.getD_append_right _ _ _ _ h, List.getD_eq_getElem?_getD, List.getElem?_getD_replicate_default_eq,
      List.getD_eq_default _ _ h]

/-- The length written at the end of a block follows its first 56 bytes (R152). -/
theorem blockOf_append_be64bytes {l : List Byte} (h : l.length = 56) (n : Length) :
    blockOf (l ++ be64bytes n) = withLength (blockOf l) n := by
  refine Vector.ext fun i hi => ?_
  rw [withLength_getElem, blockOf_getElem, blockOf_getElem]
  by_cases hlen : 56 ≤ i
  · rw [if_pos hlen, List.getD_append_right _ _ _ _ (by omega), h]
    simp [be64bytes, show i - 56 < 8 by omega]
  · rw [if_neg hlen, List.getD_append _ _ _ _ (by omega)]

/-- The length block is 56 zero bytes and the length (R153). -/
theorem lenBlock_eq_blockOf (n : Length) : lenBlock n = blockOf (List.replicate 56 0x00 ++ be64bytes n) := by
  rw [blockOf_append_be64bytes List.length_replicate, lenBlock]
  rfl

/-- 64 bytes at the front are the first block. -/
theorem messageBlocks_append_of_length {b : List Byte} (hb : b.length = 64) (c : List Byte) :
    messageBlocks (b ++ c) = blockOf b :: messageBlocks c := by
  rw [(messageBlocks_of_le (by rw [List.length_append]; omega)).1, blockOf_append hb.ge, List.drop_left' hb]

/-- 64 bytes are one block. -/
theorem messageBlocks_of_length {b : List Byte} (hb : b.length = 64) : messageBlocks b = [blockOf b] := by
  simpa [messageBlocks_of_lt (m := [])] using messageBlocks_append_of_length hb []

/-- The blocks of a longer message are the whole blocks of its beginning, then those of what they leave and the bytes that follow. -/
theorem messageBlocks_append (m c : List Byte) : messageBlocks (m ++ c) = messageBlocks m ++ messageBlocks (messageRest m ++ c) := by
  induction hn : m.length / 64 generalizing m with
  | zero =>
    obtain ⟨hblocks, hrest⟩ := messageBlocks_of_lt (m := m) (by omega)
    rw [hblocks, hrest, List.nil_append]
  | succ n ih =>
    have hm : 64 ≤ m.length := by omega
    obtain ⟨hblocks, hrest⟩ := messageBlocks_of_le hm
    obtain ⟨hblocks', -⟩ := messageBlocks_of_le (m := m ++ c) (by rw [List.length_append]; omega)
    rw [hblocks', hblocks, hrest, blockOf_append hm, List.drop_append_of_le_length hm, ih _ (by rw [List.length_drop]; omega),
      List.cons_append]

/-- At most 55 bytes left, 0x80, zeros and the length are one block (R151). -/
theorem messageBlocks_padding_of_le {l : List Byte} (h : l.length ≤ 55) (n : Length) :
    messageBlocks (l ++ ([0x80] ++ (List.replicate (55 - l.length) 0x00 ++ be64bytes n))) =
      [withLength (blockOf (l ++ [0x80])) n] := by
  have hlen : (l ++ [0x80] ++ List.replicate (55 - l.length) 0x00).length = 56 := by
    simp only [List.length_append, List.length_singleton, List.length_replicate]
    omega
  rw [← List.append_assoc, ← List.append_assoc, messageBlocks_of_length (by rw [List.length_append, hlen, be64bytes_length]),
    blockOf_append_be64bytes hlen, blockOf_append_zeros]

/-- With at least 56 bytes left, 0x80 and zeros end the block, and the length block follows (R151, R153). -/
theorem messageBlocks_padding_of_lt {l : List Byte} (hlo : 55 < l.length) (hhi : l.length < 64) (n : Length) :
    messageBlocks (l ++ ([0x80] ++ (List.replicate (63 - l.length + 56) 0x00 ++ be64bytes n))) =
      [blockOf (l ++ [0x80]), lenBlock n] := by
  have hsplit : l ++ ([0x80] ++ (List.replicate (63 - l.length + 56) 0x00 ++ be64bytes n)) =
      (l ++ [0x80] ++ List.replicate (63 - l.length) 0x00) ++ (List.replicate 56 0x00 ++ be64bytes n) := by
    simp only [List.replicate_add, List.append_assoc]
  have hlen : (l ++ [0x80] ++ List.replicate (63 - l.length) 0x00).length = 64 := by
    simp only [List.length_append, List.length_singleton, List.length_replicate]
    omega
  have hlen' : (List.replicate 56 0x00 ++ be64bytes n).length = 64 := by
    rw [List.length_append, List.length_replicate, be64bytes_length]
  rw [hsplit, messageBlocks_append_of_length hlen, messageBlocks_of_length hlen', blockOf_append_zeros, lenBlock_eq_blockOf]

end Sys2Proof.Machine
end
section
/-! FINALIZE yields the digest (44_finalizer.md R152 to R154): the blocks it compresses are the last blocks of the padded message. -/

namespace Sys2Proof.Machine

/-- The blocks an accepted FINALIZE compresses (R151, R152, R153). -/
def finalBlocks (s : State) : List Block :=
  if 56 ≤ s.buflen.toNat then [padBlock s, lenBlock s.len] else [withLength (padBlock s) s.len]

/-- With nothing pending, a compression just started settles at the compression function of its block (R125). -/
theorem settle_startCompression_v {s : State} (b : Block) (hp : s.pend = false) : (settle (startCompression s b)).v = cf s.v b :=
  (settle_of_not_pend (s := startCompression s b) hp (engineOnTrack_startCompression s b) (onStride_startCompression s b)).1

/-- Once the engine is done, V has gone over the final blocks (R124, R152). -/
theorem settle_finalized_v {s : State} (hp : s.pend = false) : (settle (finalized s)).v = (finalBlocks s).foldl cf s.v := by
  rw [finalized, finalBlocks]
  rcases startFinal_cases s with ⟨hr, he⟩ | ⟨hr, he⟩
  · rw [he, if_pos hr]
    exact (engineChainsLengthBlock (respond .written { s with buflen := 0, phase := .final, pend := true }) (padBlock s) rfl).1
  · rw [he, if_neg (by omega)]
    exact settle_startCompression_v (s := respond .written { s with buflen := 0, phase := .final }) _ hp

/-- The padded block is the remainder and the byte 0x80 (R150). -/
theorem padBlock_eq_blockOf (s : State) : padBlock s = blockOf (s.stream.remainder ++ [0x80]) := by
  have hlen : s.stream.remainder.length = s.buflen.toNat := s.stream.remainder_length
  refine Vector.ext fun i hi => ?_
  rw [padBlock_getElem, blockOf_getElem]
  rcases Nat.lt_trichotomy i s.buflen.toNat with h | h | h
  · rw [if_pos h, List.getD_append _ _ _ _ (by omega)]
    simp [Stream.remainder, State.stream, h, hi]
  · rw [if_neg (by omega), if_pos h, List.getD_append_right _ _ _ _ (by omega), hlen, h, Nat.sub_self]
    rfl
  · rw [if_neg (by omega), if_neg (by omega), List.getD_eq_default _ _ (by simp; omega)]

/-- What FINALIZE compresses after the blocks already absorbed are the last blocks of the padded message (R151, R154). -/
theorem messageBlocks_padded {s : State} {m : List Byte} (hr : s.stream.remainder = messageRest m)
    (hl : s.len.toNat = 8 * m.length) : messageBlocks (padded m) = messageBlocks m ++ finalBlocks s := by
  have hrest : (messageRest m).length = m.length % 64 := messageRest_length m
  have hbuflen : s.buflen.toNat = (messageRest m).length := by rw [← hr]; exact s.stream.remainder_length.symm
  have hbits : BitVec.ofNat 64 (8 * m.length) = s.len := by rw [← hl, BitVec.ofNat_toNat, BitVec.setWidth_eq]
  rw [padded, hbits, List.append_assoc, List.append_assoc, messageBlocks_append, finalBlocks, padBlock_eq_blockOf, hr]
  congr 1
  by_cases h : m.length % 64 ≤ 55
  · rw [if_neg (by omega), padZeros_of_le h, ← hrest, messageBlocks_padding_of_le (by omega)]
  · rw [if_pos (by omega), padZeros_of_lt (by omega), ← hrest, messageBlocks_padding_of_lt (by omega) (by omega)]

/-- Settles O49: V goes from the absorbed blocks over the final ones, which are the blocks of the padded message. -/
theorem finalizeYieldsSm3 : Obligations.FinalizeYieldsSm3 := by
  intro s m h
  obtain ⟨hb, hp, ha, hv, hl, -, hr⟩ := h
  refine ⟨finalized s, exec_finalize_of_active hb ha, ?_, ?_, ?_⟩
  · rw [settle_finalized_v hp, hv, sm3, messageBlocks_padded hr hl, List.foldl_append]
  · exact dvalid_iff.mpr ⟨settle_phase _, engineStopsWithinBound _⟩
  · rw [settle_len]
    exact startFinal_len s

end Sys2Proof.Machine
end
section
/-! The register accesses (45_digest_and_control.md R163 to R168): DIN, STATUS, the halves of LEN and the digest. -/

namespace Sys2Proof.Machine

/-- The block after a write of `v` to DIN (R167). -/
def writeDin (v : Word) (s : State) : State := respond .written { s with din := v }

/-- A write of DIN is taken at once, whatever BUSY is (R167). -/
theorem exec_wrDin (v : Word) (s : State) : exec (.wrDin v) s = .next (writeDin v s) := rfl

/-- Settles O19: `writeDin` written out. -/
theorem writeDinCompletes : Obligations.WriteDinCompletes := exec_wrDin

/-- A read of DIN returns its value (R168). -/
theorem exec_rdDin (s : State) : exec .rdDin s = .next (respond (.value s.din) s) := rfl

/-- Settles O20: the read of the state `writeDin` leaves returns the value written. -/
theorem readDinReturnsLastWrite : Obligations.ReadDinReturnsLastWrite := by
  refine fun v s p => ⟨rfl, exec_rdDin s, fun t h => ?_⟩
  rw [exec_wrDin] at h
  cases h
  exact exec_rdDin (writeDin v s)

open Function (Commute)

/-- A round neither reads nor writes DIN (R122). -/
theorem roundOnce_commute_writeDin (v : Word) : Commute roundOnce (writeDin v) := fun s => by
  unfold roundOnce writeDin respond
  dsimp only
  split <;> rfl

/-- Nor does the finish step (R124). -/
theorem engineFinish_commute_writeDin (v : Word) : Commute engineFinish (writeDin v) := fun s => by
  unfold engineFinish writeDin respond
  dsimp only
  split <;> rfl

/-- "The engine never reads DIN" (R167). -/
theorem engineStep_commute_writeDin (v : Word) : Commute engineStep (writeDin v) := fun s => by
  cases hb : s.busy with
  | false => rw [engineStep_idle hb, engineStep_idle (s := writeDin v s) hb]
  | true =>
    by_cases hj : s.j.val < 64
    · rw [engineStep_round hb hj, engineStep_round (s := writeDin v s) hb hj]
      exact (roundOnce_commute_writeDin v).iterate_left s.params.k.toNat s
    · have hj : s.j.val = 64 := by omega
      rw [engineStep_finish hb hj, engineStep_finish (s := writeDin v s) hb hj, engineFinish_commute_writeDin v]

/-- Settles O44: a write of DIN is `writeDin`, with which an engine step commutes. -/
theorem dinWriteCommutesWithEngine : Obligations.DinWriteCommutesWithEngine := by
  intro v s t h
  rw [exec_wrDin] at h
  cases h
  rw [exec_wrDin, engineStep_commute_writeDin v]

/-- A read of STATUS returns the STATUS word (R165). -/
theorem exec_rdStatus (s : State) : exec .rdStatus s = .next (respond (.value (statusWord s)) s) := rfl

/-- Settles O21: the word read is the number `statusWord_toNat`, whose DVALID and FINAL bits are the statement's by definition. -/
theorem readStatusCompletes : Obligations.ReadStatusCompletes := by
  intro s
  have hsum : statusWord s = BitVec.ofNat 32 (s.buflen.toNat * 2 ^ 16 + s.errLen.toNat * 2 ^ 10 + s.errSeq.toNat * 2 ^ 9
      + s.errIll.toNat * 2 ^ 8 + (dvalid s).toNat * 2 ^ 2 + (finalBit s).toNat * 2 ^ 1 + s.busy.toNat) := by
    rw [← statusWord_toNat, BitVec.ofNat_toNat, BitVec.setWidth_eq]
  rw [exec_rdStatus, hsum]
  rfl

/-- The halves of LEN put together (R166). -/
theorem lenHi_lenLo_toNat (s : State) : (lenHi s).toNat * 2 ^ 32 + (lenLo s).toNat = s.len.toNat := by
  have hlt : s.len.toNat < 2 ^ 64 := s.len.isLt
  simp only [lenHi, lenLo, BitVec.extractLsb'_toNat, Nat.shiftRight_eq_div_pow]
  omega

/-- Settles O23: the reads return `lenHi` and `lenLo`, the two fields of LEN. -/
theorem readLenHalves : Obligations.ReadLenHalves := fun s => ⟨rfl, rfl, lenHi_lenLo_toNat s⟩

/-- A read of the valid digest returns V[i] (R164). -/
theorem exec_rdDigest_of_dvalid {s : State} (h : dvalid s = true) (i : Fin 8) :
    exec (.rdDigest i) s = .next (respond (.value s.v[i]) s) := by
  rw [exec, execRdDigest, if_pos h]

/-- A read of the digest while it is not valid draws a free value (R164, log entry 3). -/
theorem exec_rdDigest_of_not_dvalid {s : State} (h : ¬ dvalid s = true) (i : Fin 8) :
    exec (.rdDigest i) s = .next (respond (.value (Config.freeDigest s.draws)) { s with draws := s.draws + 1 }) := by
  rw [exec, execRdDigest, if_neg h]

/-- Settles O24: the two cases of DVALID. -/
theorem readDigestCompletes : Obligations.ReadDigestCompletes := by
  refine fun i s => ⟨fun hp hb => exec_rdDigest_of_dvalid (dvalid_iff.mpr ⟨hp, hb⟩) i, fun hn => ?_⟩
  exact ⟨Config.freeDigest s.draws, s.draws + 1, exec_rdDigest_of_not_dvalid (mt dvalid_iff.mp hn) i⟩

/-- Settles O25: each of the three reads finds the digest valid, and leaves V and DVALID to the next. -/
theorem digestReadsAreIdempotent : Obligations.DigestReadsAreIdempotent := by
  intro i k s t u w hp hb ht hu hw
  have hs : dvalid s = true := dvalid_iff.mpr ⟨hp, hb⟩
  rw [exec_rdDigest_of_dvalid hs] at ht
  cases ht
  rw [exec_rdDigest_of_dvalid (s := respond _ s) hs] at hu
  cases hu
  rw [exec_rdDigest_of_dvalid (s := respond _ (respond _ s)) hs] at hw
  cases hw
  exact ⟨s.v[i], s.v[k], rfl, by simp, rfl⟩

end Sys2Proof.Machine
end
section
/-! The control commands, and the write of CMD (45_digest_and_control.md R160, R161, R169). -/

namespace Sys2Proof.Machine

/-- With BUSY = 0 a CMD write is accepted: it has its effect and is answered (R201). -/
theorem exec_cmd_idle {i : Instr} {f : State → State} {s : State} (h : cmdEffect i = some f) (hb : s.busy = false) :
    exec i s = .next (respond .written (f s)) := by
  rw [exec_cmd h, offerCommand_idle hb]

/-- With BUSY = 1 it is held: it goes back to the head of the events, and the engine takes the step (R201, log entry 5). -/
theorem exec_cmd_busy {i : Instr} {f : State → State} {s : State} (h : cmdEffect i = some f) (hb : s.busy = true) :
    exec i s = .next (engineStep (requeue (requestOf s.params (encode i)) s)) := by
  rw [exec_cmd h, offerCommand_busy hb]

/-- Settles O13: an accepted NOP has no effect but the answer, and a held one is any held command. -/
theorem nopCompletes : Obligations.NopCompletes := fun _ =>
  ⟨exec_cmd_idle (f := acceptNop) rfl, exec_cmd_busy (i := .nop) rfl⟩

/-- The words read after an INIT do not depend on what it leaves unchanged (R40, R41, R161). -/
theorem status_len_of_acceptInit {s : State} (hb : s.busy = false) :
    statusWord (acceptInit s) = 0x00000000 ∧ lenHi (acceptInit s) = 0 ∧ lenLo (acceptInit s) = 0 := by
  refine ⟨?_, by simp [lenHi], by simp [lenLo]⟩
  simp [statusWord, dvalid, finalBit, hb]

/-- Settles O14: the effect of INIT, and the words read after it. -/
theorem initCompletes : Obligations.InitCompletes := by
  intro s hb
  have hinit : exec .init s = .next (respond .written (acceptInit s)) := exec_cmd_idle rfl hb
  refine ⟨hinit, fun t ht => ?_⟩
  rw [hinit] at ht
  cases ht
  exact status_len_of_acceptInit hb

@[simp] theorem startFinal_responses (s : State) : (startFinal s).responses = s.responses := by unfold startFinal; split <;> rfl

/-- The effect of a command answers nothing itself. -/
theorem CommandEffect.responses_eq {s t : State} {c : Command} (h : CommandEffect s c t) : t.responses = s.responses := by
  cases h with
  | nop => rfl
  | init => rfl
  | rejected _ r => exact raise_responses r s
  | pushed n => exact pushBytes_responses n.val s
  | finalized => exact startFinal_responses s

/-- Nor does that of an accepted CMD write, of an illegal word included. -/
theorem responses_of_cmdEffect {i : Instr} {f : State → State} (h : cmdEffect i = some f) (s : State) :
    (f s).responses = s.responses := by
  rcases cmdEffect_cases h with ⟨c, -, rfl⟩ | ⟨w, -, -, rfl⟩
  · exact (commandEffect_performCommand c s).responses_eq
  · exact raise_responses _ s

/-- Settles O17: with BUSY = 0 the write has the effect of its word, which is that of the command's own row, or of an illegal word. -/
theorem writeCmdPerformsItsCommand : Obligations.WriteCmdPerformsItsCommand := by
  intro w s
  refine ⟨fun hb c hc => ?_, fun hb hc => ?_, fun hb => ?_, exec_cmd_busy (i := .wrCmd w) rfl⟩
  · obtain rfl := decodeCmd_eq_word hc
    rw [exec_cmd_idle (cmdEffect_of_command (.inr rfl)) hb, exec_cmd_idle (cmdEffect_of_command (.inl rfl)) hb]
  · rw [exec_wrCmd_of_illegal hc, offerCommand_idle hb, acceptIllegal]
  · have hf : cmdEffect (.wrCmd w) = some (performWord w) := rfl
    exact ⟨_, exec_cmd_idle hf hb, by rw [respond_responses, responses_of_cmdEffect hf]⟩

end Sys2Proof.Machine
end
section
/-! The errors (60_exceptions.md): no step stops (R180), a cause is recorded with what it was raised for and nothing else changes
(R181, R182, R184), the checks have an order (R186), and the record only grows (R34, R187). -/

namespace Sys2Proof.Machine

/-! No stop (R180, log entry 10). -/

theorem exec_answers_next (i : Instr) (s : State) : ∃ t, exec i s = .next t := by
  cases i <;> exact ⟨_, rfl⟩

theorem runRequest_answers_next (r : Request) (s : State) : ∃ t, runRequest r s = .next t := by
  unfold runRequest
  split
  · exact ⟨s, rfl⟩
  · split
    · exact exec_answers_next _ s
    · exact ⟨_, rfl⟩

/-- Settles O11: the engine and reset always have a next state, and so has every access of the host. -/
theorem everyStepAnswersNext : Obligations.EveryStepAnswersNext := by
  intro s
  unfold step
  split
  · exact ⟨_, rfl⟩
  · exact ⟨_, rfl⟩
  · exact ⟨_, rfl⟩
  · exact runRequest_answers_next _ _

/-! What each cause does. -/

/-- In phase FINAL a PUSH or FINALIZE raises SEQUENCE before any other check (R182, R186). -/
theorem performCommand_of_final {c : Command} {s : State} (hc : (∃ n, c = .push n) ∨ c = .finalize) (hp : s.phase = .final) :
    performCommand c s = raise (.sequence c.word) s := by
  rcases hc with ⟨n, rfl⟩ | rfl
  · exact if_pos hp
  · exact if_pos hp

/-- Accepted there, it is answered as a completed write (log entry 6). -/
theorem exec_of_final {c : Command} {s : State} (hc : (∃ n, c = .push n) ∨ c = .finalize) (hp : s.phase = .final)
    (hb : s.busy = false) : exec c.toInstr s = .next (respond .written (raise (.sequence c.word) s)) := by
  rw [exec_cmd_idle (cmdEffect_of_command (.inl rfl)) hb, performCommand_of_final hc hp]

/-- Settles O27: the state is that of `exec_of_final`, which keeps PHASE and BUSY. -/
theorem sequenceErrorKeepsDigest : Obligations.SequenceErrorKeepsDigest := by
  intro c s hc hp hb
  have hexec := exec_of_final hc hp hb
  refine ⟨hexec, fun t ht => ?_⟩
  rw [hexec] at ht
  cases ht
  exact dvalid_iff.mpr ⟨hp, hb⟩

/-- A write passes the bus check at the offsets of CMD and DIN only (R38, R53). -/
theorem rejected_of_write {a : BusAccess} (hd : a.dir = .write) (h : a.width ≠ 32 ∨ (a.off ≠ 0x00 ∧ a.off ≠ 0x04)) :
    a.Rejected := by
  have hoff : ∀ o : BitVec 6, o ≠ 0x00 → o ≠ 0x04 →
      o.toNat % 4 ≠ 0 ∨ o ∈ [0x0C#6, 0x18#6, 0x1C#6] ∨ o ∈ [0x08#6, 0x10#6, 0x14#6] ∨ 0x20 ≤ o.toNat := by decide
  rcases h with hw | ⟨hcmd, hdin⟩
  · exact .inl hw
  · rcases hoff a.off hcmd hdin with hmis | hres | hro
    · exact .inr (.inl hmis)
    · exact .inr (.inr (.inl hres))
    · exact .inr (.inr (.inr (.inl ⟨hd, hro⟩)))

/-- An access that the bus check rejects gets the bus error, whatever its data (R53, R184). -/
theorem runRequest_of_rejected {a : BusAccess} (h : a.Rejected) (s : State) :
    runRequest (requestOf s.params (.bus a)) s = .next (busErrorAccess a s) := by
  obtain ⟨e, he⟩ := Option.ne_none_iff_exists'.mp fun hn => (busCheck_eq_none_iff_not_rejected a).mp hn h
  simp [runRequest, decode_bus_of_busCheck_some he, rejectOp]

/-- Settles O28: each check that fails raises its own cause, of which `raise` sets the one bit and appends the one record. -/
theorem errorPriority : Obligations.ErrorPriority := by
  refine ⟨fun a s hd h => ?_, fun w s hc hb => ?_, fun n s hp hb => ?_⟩
  · exact ⟨_, runRequest_of_rejected (rejected_of_write hd h) s, by rw [← hd]; rfl, rfl, rfl, rfl⟩
  · refine ⟨respond .written (acceptIllegal w s), ?_, rfl, rfl, rfl, rfl⟩
    rw [exec_wrCmd_of_illegal hc, offerCommand_idle hb]
  · exact ⟨_, exec_of_final (c := .push n) (.inl ⟨n, rfl⟩) hp hb, rfl, rfl, rfl, rfl⟩

/-! The record (R34, R187). -/

/-- The record of `t` is that of `s`, with at most one cause after it. -/
def RecordsAtMostOne (s t : State) : Prop := ∃ l : List FaultRecord, t.faults = s.faults ++ l ∧ l.length ≤ 1

theorem recordsAtMostOne_of_faults_eq {s t : State} (h : t.faults = s.faults) : RecordsAtMostOne s t :=
  ⟨[], by rw [h, List.append_nil], Nat.zero_le 1⟩

theorem recordsAtMostOne_raise (r : FaultRecord) (s : State) : RecordsAtMostOne s (raise r s) :=
  ⟨[r], raise_faults r s, Nat.le_refl 1⟩

/-- A command records a cause only when it is rejected, INIT never (R34, R182, R183). -/
theorem CommandEffect.recordsAtMostOne {s t : State} {c : Command} (h : CommandEffect s c t) : RecordsAtMostOne s t := by
  cases h with
  | nop => exact recordsAtMostOne_of_faults_eq rfl
  | init => exact recordsAtMostOne_of_faults_eq rfl
  | rejected _ r => exact recordsAtMostOne_raise r s
  | pushed n => exact recordsAtMostOne_of_faults_eq (pushBytes_faults n.val s)
  | finalized => exact recordsAtMostOne_of_faults_eq (startFinal_faults s)

/-- Settles O29: of the steps, a bus error and an illegal word record one cause, a command at most one, and the others none. -/
theorem oneCausePerStepNeverCleared : Obligations.OneCausePerStepNeverCleared := by
  intro s t h
  cases stepEffect_of_step h with
  | engine l => exact recordsAtMostOne_of_faults_eq (engineStep_faults _)
  | reset l => exact recordsAtMostOne_of_faults_eq rfl
  | elsewhere l => exact recordsAtMostOne_of_faults_eq rfl
  | busError l a => exact recordsAtMostOne_raise _ { s with inputs := l }
  | din l v => exact recordsAtMostOne_of_faults_eq rfl
  | read l x d => exact recordsAtMostOne_of_faults_eq rfl
  | illegal l w => exact recordsAtMostOne_raise _ { s with inputs := l }
  | command l c => exact (commandEffect_performCommand c { s with inputs := l }).recordsAtMostOne

end Sys2Proof.Machine
end
section
/-! Reset and hold (70_reset_and_hazards.md): what reset leaves (R200, R202), what BUSY holds back (R201), and what discards a digest
(R205). -/

namespace Sys2Proof.Machine

/-! Reset. -/

/-- Settles O57: the step is `resetMachine`'s, which has the reset values and the words read from them, and keeps the rest. -/
theorem resetAtAnyTime : Obligations.ResetAtAnyTime := by
  intro s rest hi
  have hnext : ResetNext s := by simp [ResetNext, hi]
  obtain ⟨-, -, -, -, -, -, -, -, -, -, -, hstatus, hhi, hlo, hvalid⟩ := resetValues s.params
  exact ⟨_, step_of_resetNext hnext, rfl, rfl, rfl, rfl, rfl, rfl, rfl, rfl, rfl, rfl, rfl, hstatus, hhi, hlo, hvalid, rfl,
    by simp [hi], rfl⟩

/-- The reset state has absorbed the empty message: no block, no bit, no remainder (R20, R200). -/
theorem absorbed_resetWith (p : Params) : Absorbed (State.resetWith p) [] := by
  obtain ⟨hblocks, -⟩ := messageBlocks_of_lt (m := []) (by decide)
  exact ⟨rfl, rfl, rfl, by rw [hblocks]; rfl, rfl, rfl, rfl⟩

/-- Settles O58: the reset state is that of a reset, its engine is idle, and it has absorbed nothing. -/
theorem resetMeetsInvariants : Obligations.ResetMeetsInvariants := fun p =>
  ⟨inv_resetMachine (State.resetWith p), engineOnTrack_of_idle rfl, absorbed_resetWith p⟩

/-! Hold. -/

/-- The CMD writes are the instructions that have an effect when accepted (R201). -/
theorem cmdEffect_isSome (i : Instr) : (cmdEffect i).isSome = isCmdWrite i := by
  cases i <;> rfl

/-- Settles O18: the held write goes back to the head of the events, and the engine's step leaves every field named as it was. -/
theorem busyHoldsCommands : Obligations.BusyHoldsCommands := by
  intro i s hi hb
  obtain ⟨f, hf⟩ := Option.isSome_iff_exists.mp ((cmdEffect_isSome i).trans hi)
  have hexec := exec_cmd_busy hf hb
  refine ⟨hexec, fun t ht => ?_⟩
  rw [hexec] at ht
  cases ht
  simp

/-! The digest. -/

/-- The digest stands while V, PHASE and BUSY do (R28, R40). -/
theorem digest_stands_of_eq {s t : State} (hd : dvalid s = true) (hv : t.v = s.v) (hp : t.phase = s.phase) (hb : t.busy = s.busy) :
    dvalid t = true ∧ t.v = s.v := by
  obtain ⟨hfinal, hidle⟩ := dvalid_iff.mp hd
  exact ⟨dvalid_iff.mpr ⟨hp.trans hfinal, hb.trans hidle⟩, hv⟩

/-- In phase ACTIVE there is no digest (R25, R40). -/
theorem dvalid_of_active {s : State} (h : s.phase = .active) : dvalid s = false := by
  simp [dvalid, finalBit, h]

/-- In phase FINAL every command but INIT is a NOP or rejected, so the digest stands (R182, R205). -/
theorem CommandEffect.digest_stands {s t : State} {c : Command} (h : CommandEffect s c t) (hd : dvalid s = true) (hc : c ≠ .init) :
    dvalid t = true ∧ t.v = s.v := by
  obtain ⟨hp', -⟩ := dvalid_iff.mp hd
  have hfinal : s.phase ≠ .active := by simp [hp']
  cases h with
  | nop => exact ⟨hd, rfl⟩
  | init => exact absurd rfl hc
  | rejected _ r => exact digest_stands_of_eq hd (raise_v r s) (raise_phase r s) (raise_busy r s)
  | pushed n hp => exact absurd hp hfinal
  | finalized hp => exact absurd hp hfinal

/-- Of the steps, only a reset and an accepted INIT reach a valid digest: the engine is idle, and each other step answers, writes DIN,
or raises a cause (R202, R205). -/
theorem digest_stands_of_step {s t : State} (hd : dvalid s = true) (h : step s = .next t) (hr : ¬ ResetNext s)
    (hi : ¬ AcceptsNext s .init) : dvalid t = true ∧ t.v = s.v := by
  cases stepEffect_of_step h with
  | engine l =>
    rw [engineStep_idle (s := { s with inputs := l }) (dvalid_iff.mp hd).2]
    exact ⟨hd, rfl⟩
  | reset l hr' => exact absurd hr' hr
  | elsewhere l => exact ⟨hd, rfl⟩
  | busError l a => exact ⟨hd, rfl⟩
  | din l v => exact ⟨hd, rfl⟩
  | read l x d => exact ⟨hd, rfl⟩
  | illegal l w => exact ⟨hd, rfl⟩
  | command l c hc =>
    refine (commandEffect_performCommand c { s with inputs := l }).digest_stands hd ?_
    rintro rfl
    exact hi hc

/-- Settles O51: each command and each step either keeps the digest by the lemmas above, or leaves phase FINAL. -/
theorem onlyInitOrResetDiscardsTheDigest : Obligations.OnlyInitOrResetDiscardsTheDigest := by
  refine ⟨fun c s t hd h => ?_, fun s t hd h => ⟨digest_stands_of_step hd h, fun hs => ?_⟩⟩
  · rw [exec_cmd_idle (cmdEffect_of_command (.inl rfl)) (dvalid_iff.mp hd).2] at h
    cases h
    refine ⟨(commandEffect_performCommand c s).digest_stands hd, ?_⟩
    rintro rfl
    exact dvalid_of_active rfl
  · obtain ⟨-, -, hactive, -⟩ := step_of_reset_or_init h hs
    exact dvalid_of_active hactive

end Sys2Proof.Machine
end
